-- ==== Sys2Proof/Word.lean ====
section
/-! DEFINITION. The word types of the block: 32-bit command words and registers, 8-bit character codes, 3-bit source
codes, and the four-character window a display buffer holds (00_scope.md R5, R7, R10). -/

namespace Sys2Proof

/-- A 32-bit command word or register value (R7, R80). -/
abbrev Word := BitVec 32

/-- An 8-bit character code, or an 8-bit header operand (R7, R85). -/
abbrev Byte := BitVec 8

/-- A raw 3-bit source code as a command or a tick carries it: 0..4 name sources, 5..7 name none (R4, R82). -/
abbrev SourceCode := BitVec 3

/-- Four characters, entry 0 leftmost (R5, R27). -/
abbrev Window := Vector Byte 4

/-- The blank character 0x20 of R12. -/
def blank : Byte := 0x20

/-- `B(k)` of R12: k blank characters. -/
def blanks (k : Nat) : List Byte := List.replicate k blank

/-- Four blanks. -/
def blankWindow : Window := #v[blank, blank, blank, blank]

end Sys2Proof
end

