-- ==== Sys2Proof/Config.lean ====
section
/-! DEFINITION. What is fixed for a model instance and is not state (10_state.md R53): the numeric parameters of
00_scope.md section 2, the three parameters the spec leaves OPEN with a default (GLYPH_TABLE and the two polarity
functions, R8 and R9), and the free values a buffer entry the spec leaves unspecified reads as (R54). -/

namespace Sys2Proof

/-- A periodic-interrupt source, numbered 0..4: `NUM_SOURCES = 5` (R4). -/
abbrev Source := Fin 5

/-- A digit position, numbered 0..3: `NUM_DIGITS = 4` (R5). -/
abbrev Position := Fin 4

/-- `TEXT_CAP`: the largest text a carousel or slider configure accepts (R6). -/
def Config.textCap : Nat := 248

/-- The number of entries of K_BUF (R6, R62). -/
def Config.kBufSize : Nat := 256

/-- The number of entries of S_BUF (R6, R63). -/
def Config.sBufSize : Nat := 252

/-- The parameters the spec leaves open with a default. A claim about pins or masks that is to hold of every SSDB is
stated for every `Params` that is `Legal`. -/
structure Config.Params where
  /-- GLYPH_TABLE: a normalized 7-bit code to a 7-bit segment mask (R8). -/
  glyphTable : BitVec 7 → BitVec 7
  /-- SEG_ACTIVE_HIGH(POL) (R9). -/
  segActiveHigh : Bool → Bool
  /-- DIG_ACTIVE_HIGH(POL) (R9). -/
  digActiveHigh : Bool → Bool

/-- The 40 supported normalized codes: digits, upper-case letters, '-', '=', '_' and space (R122). -/
def Config.supported (c : BitVec 7) : Bool :=
  (0x30 ≤ c && c ≤ 0x39) || (0x41 ≤ c && c ≤ 0x5A) || c == 0x2D || c == 0x3D || c == 0x5F || c == 0x20

/-- The constraints R124 puts on a GLYPH_TABLE (its first, totality, is the type's). -/
structure Config.Params.Legal (P : Config.Params) : Prop where
  /-- Every unsupported code is blank (R124 point 2, R123). -/
  unsupportedBlank : ∀ c, Config.supported c = false → P.glyphTable c = 0
  /-- Space is blank (R124 point 3). -/
  spaceBlank : P.glyphTable 0x20 = 0
  /-- Every other supported character is lit (R124 point 4). -/
  othersLit : ∀ c, Config.supported c = true → c ≠ 0x20 → P.glyphTable c ≠ 0

/-- The two internal memories whose reset contents the spec leaves unspecified (R62, R63, R54). -/
inductive Config.Buffer
  | kBuf
  | sBuf
deriving DecidableEq, Repr

/-- FREE VALUE (log entry 3): what entry `index` of a buffer reads as while nothing has been written to it since the
last reset, the draw taken at reset that R54 allows; `epoch` counts the resets, so every reset draws anew. Nothing
constrains it, and no state a run reaches reads it (R75). -/
opaque Config.unspecifiedEntry (b : Config.Buffer) (epoch index : Nat) : Byte

end Sys2Proof
end

