-- ==== Sys2Proof/Syntax.lean ====
section
/-! DEFINITION. The instructions of the opcode table (30_encoding.md R91), the events the environment delivers
(R14, R320) and the output records the block emits (45_scheduler.md R271). -/

namespace Sys2Proof

/-- One constructor per row of opcode_table.json (R91). Source and direction codes stand as the command carries them:
whether a code names anything is the instruction's own check (R92). A text is the list of its N characters (R89). -/
inductive Instr
  /-- R150 -/
  | setupDisplay (bound : BitVec 4) (pol : Bool)
  /-- R151 -/
  | setDp (dp : Bool)
  /-- R152 -/
  | showStatic (rs : SourceCode) (chars : Window) (rper : Word)
  /-- R170 -/
  | cntConfig (rs asc : SourceCode) (stopEn : Bool) (dir : Byte) (start inc stop aper rper : Word)
  /-- R174 -/
  | cntPause
  /-- R175 -/
  | cntResume
  /-- R176 -/
  | cntToggle
  /-- R177 -/
  | cntReset
  /-- R178 -/
  | cntSetCount (v : Word)
  /-- R179 -/
  | cntSetInc (v : Word)
  /-- R180 -/
  | cntSetDir (dir : Byte)
  /-- R181 -/
  | cntSetStop (v : Word)
  /-- R182 -/
  | cntClearStop
  /-- R183 -/
  | cntReadNorm
  /-- R184 -/
  | cntReadRaw
  /-- R211 -/
  | carConfig (rs asc : SourceCode) (cont pad : Bool) (aper rper : Word) (text : List Byte)
  /-- R214 -/
  | carPause
  /-- R215 -/
  | carResume
  /-- R216 -/
  | carToggle
  /-- R217 -/
  | carRestart
  /-- R242 -/
  | sldConfig (rs asc : SourceCode) (cont pad coll : Bool) (aper rper : Word) (text : List Byte)
  /-- R244 -/
  | sldPause
  /-- R245 -/
  | sldResume
  /-- R246 -/
  | sldToggle
  /-- R247 -/
  | sldRestart
  /-- R275: one firing of a periodic source, on the tick port (R94) -/
  | tick (code : SourceCode)
deriving DecidableEq, Repr

/-- What the environment delivers to the block, each one atomic step (R14, R308). -/
inductive Event
  /-- `Cmd(ws)`: a host command as its complete list of words (R80). -/
  | cmd (ws : List Word)
  /-- `Tick(s)`: one firing of a periodic source (R94). -/
  | tick (code : SourceCode)
  /-- A reset, as at a power cycle (R320). -/
  | reset
deriving DecidableEq, Repr

/-- One record of the block's ordered output trace (R271). -/
inductive OutputRecord
  /-- `arm(s, p)`: start source s with period p. -/
  | arm (s : Source) (p : Word)
  /-- `disarm(s)`: stop source s. -/
  | disarm (s : Source)
  /-- `resp(v)`: a counter value the host reads (R296). -/
  | resp (v : Word)
deriving DecidableEq, Repr

/-- The pseudo-commands of R97. -/
inductive Pseudo
  /-- `SHOW "<k chars>", rs=, rper=` with 0 ≤ k ≤ 4. -/
  | showText (chars : List Byte) (rs : SourceCode) (rper : Word)
  /-- `CNT_SET_PAUSE v` -/
  | cntSetPause (v : Nat)
  /-- `CAR_SET_PAUSE v` -/
  | carSetPause (v : Nat)
  /-- `SLD_SET_PAUSE v` -/
  | sldSetPause (v : Nat)
deriving DecidableEq, Repr

end Sys2Proof
end

