-- ==== Sys2Proof/WellFormed.lean ====
section
/-! DEFINITION. Which instruction terms the encoding can carry. Every operand but a text has exactly the width of its
field by its type; a text's length N must fit in the byte B3 (30_encoding.md R81, R85). -/

namespace Sys2Proof

/-- `i` is an instruction the encoding can carry: a text has at most 255 characters (R85). -/
def Instr.wf (i : Instr) : Bool :=
  match i with
  | .setupDisplay _ _ => true
  | .setDp _ => true
  | .showStatic _ _ _ => true
  | .cntConfig _ _ _ _ _ _ _ _ _ => true
  | .cntPause => true
  | .cntResume => true
  | .cntToggle => true
  | .cntReset => true
  | .cntSetCount _ => true
  | .cntSetInc _ => true
  | .cntSetDir _ => true
  | .cntSetStop _ => true
  | .cntClearStop => true
  | .cntReadNorm => true
  | .cntReadRaw => true
  | .carConfig _ _ _ _ _ _ text => decide (text.length ≤ 255)
  | .carPause => true
  | .carResume => true
  | .carToggle => true
  | .carRestart => true
  | .sldConfig _ _ _ _ _ _ _ text => decide (text.length ≤ 255)
  | .sldPause => true
  | .sldResume => true
  | .sldToggle => true
  | .sldRestart => true
  | .tick _ => true

end Sys2Proof
end

