-- ==== Sys2Proof/Decode.lean ====
section
/-! DEFINITION. From command words to instructions and back (30_encoding.md): the header's fields (R81), text packing
(R89, R90), lengths (R88), the decoder (R92), which names why it rejects, the encoder, and the pseudo-commands (R97).
The decoder is total on every list of words. -/

namespace Sys2Proof

/-- The command opcodes of R91. -/
inductive Op
  | setupDisplay | setDp | showStatic
  | cntConfig | cntPause | cntResume | cntToggle | cntReset | cntSetCount | cntSetInc | cntSetDir | cntSetStop
  | cntClearStop | cntReadNorm | cntReadRaw
  | carConfig | carPause | carResume | carToggle | carRestart
  | sldConfig | sldPause | sldResume | sldToggle | sldRestart
deriving DecidableEq, Repr

/-- Why a command is no instruction; the block ignores it (R92). -/
inductive DecodeReject
  /-- The word list is empty (R92). -/
  | emptyCommand
  /-- OP is not listed in R91 (R93). -/
  | reservedOpcode
  /-- The word list is not `len(OP, N)` words long (R88). -/
  | wrongLength
deriving DecidableEq, Repr

/-- The OP column of R91. -/
def Op.code : Op → Byte
  | .setupDisplay => 0x01
  | .setDp => 0x02
  | .showStatic => 0x03
  | .cntConfig => 0x10
  | .cntPause => 0x11
  | .cntResume => 0x12
  | .cntToggle => 0x13
  | .cntReset => 0x14
  | .cntSetCount => 0x15
  | .cntSetInc => 0x16
  | .cntSetDir => 0x17
  | .cntSetStop => 0x18
  | .cntClearStop => 0x19
  | .cntReadNorm => 0x1A
  | .cntReadRaw => 0x1B
  | .carConfig => 0x20
  | .carPause => 0x21
  | .carResume => 0x22
  | .carToggle => 0x23
  | .carRestart => 0x24
  | .sldConfig => 0x30
  | .sldPause => 0x31
  | .sldResume => 0x32
  | .sldToggle => 0x33
  | .sldRestart => 0x34

/-- The opcode a byte stands for; every value not in R91 is reserved (R93). -/
def Op.ofCode (b : Byte) : Option Op :=
  match b.toNat with
  | 0x01 => some .setupDisplay
  | 0x02 => some .setDp
  | 0x03 => some .showStatic
  | 0x10 => some .cntConfig
  | 0x11 => some .cntPause
  | 0x12 => some .cntResume
  | 0x13 => some .cntToggle
  | 0x14 => some .cntReset
  | 0x15 => some .cntSetCount
  | 0x16 => some .cntSetInc
  | 0x17 => some .cntSetDir
  | 0x18 => some .cntSetStop
  | 0x19 => some .cntClearStop
  | 0x1A => some .cntReadNorm
  | 0x1B => some .cntReadRaw
  | 0x20 => some .carConfig
  | 0x21 => some .carPause
  | 0x22 => some .carResume
  | 0x23 => some .carToggle
  | 0x24 => some .carRestart
  | 0x30 => some .sldConfig
  | 0x31 => some .sldPause
  | 0x32 => some .sldResume
  | 0x33 => some .sldToggle
  | 0x34 => some .sldRestart
  | _ => none

/-- `fixed(op)` of R88: the count of non-text payload words in R87. -/
def Op.fixedPayload : Op → Nat
  | .showStatic => 2
  | .cntConfig => 5
  | .cntSetCount => 1
  | .cntSetInc => 1
  | .cntSetStop => 1
  | .carConfig => 2
  | .sldConfig => 2
  | .setupDisplay | .setDp | .cntPause | .cntResume | .cntToggle | .cntReset | .cntSetDir | .cntClearStop
  | .cntReadNorm | .cntReadRaw | .carPause | .carResume | .carToggle | .carRestart
  | .sldPause | .sldResume | .sldToggle | .sldRestart => 0

/-- The two text configures (R88). -/
def Op.hasText : Op → Bool
  | .carConfig | .sldConfig => true
  | .setupDisplay | .setDp | .showStatic | .cntConfig | .cntPause | .cntResume | .cntToggle | .cntReset
  | .cntSetCount | .cntSetInc | .cntSetDir | .cntSetStop | .cntClearStop | .cntReadNorm | .cntReadRaw
  | .carPause | .carResume | .carToggle | .carRestart | .sldPause | .sldResume | .sldToggle | .sldRestart => false

/-- The number of words N characters take: ⌈N/4⌉ (R88). -/
def textWords (n : Nat) : Nat := (n + 3) / 4

/-- `len(op, N)` of R88. -/
def commandLength (op : Op) (n : Nat) : Nat :=
  1 + op.fixedPayload + if op.hasText then textWords n else 0

/-! ## The header word (R81) -/

/-- OP = H[7:0]. -/
def headerOp (h : Word) : Byte := h.extractLsb' 0 8
/-- RS = H[10:8] (R82). -/
def headerRs (h : Word) : SourceCode := h.extractLsb' 8 3
/-- AS = H[13:11] (R83). -/
def headerAs (h : Word) : SourceCode := h.extractLsb' 11 3
/-- F0 = H[16] (R84). -/
def headerF0 (h : Word) : Bool := h.getLsbD 16
/-- F1 = H[17] (R84). -/
def headerF1 (h : Word) : Bool := h.getLsbD 17
/-- F2 = H[18] (R84). -/
def headerF2 (h : Word) : Bool := h.getLsbD 18
/-- B3 = H[31:24] (R85). -/
def headerB3 (h : Word) : Byte := h.extractLsb' 24 8

/-- A header word with its fields in the places R81 gives them and 0 in every reserved bit (R86). -/
def headerWord (op : Byte) (rs asc : SourceCode) (f0 f1 f2 : Bool) (b3 : Byte) : Word :=
  BitVec.ofNat 32 (op.toNat + 2 ^ 8 * rs.toNat + 2 ^ 11 * asc.toNat
    + 2 ^ 16 * f0.toNat + 2 ^ 17 * f1.toNat + 2 ^ 18 * f2.toNat + 2 ^ 24 * b3.toNat)

/-- The header bits an opcode uses: OP and the fields of R91's third column; every other bit is reserved (R81, R84,
R85, R91). -/
def usedHeaderBits : Op → Word
  | .setupDisplay => 0x0F0100FF
  | .setDp => 0x000100FF
  | .showStatic => 0x000007FF
  | .cntConfig => 0xFF013FFF
  | .cntSetDir => 0xFF0000FF
  | .carConfig => 0xFF033FFF
  | .sldConfig => 0xFF073FFF
  | .cntPause | .cntResume | .cntToggle | .cntReset | .cntSetCount | .cntSetInc | .cntSetStop | .cntClearStop
  | .cntReadNorm | .cntReadRaw | .carPause | .carResume | .carToggle | .carRestart
  | .sldPause | .sldResume | .sldToggle | .sldRestart => 0x000000FF

/-! ## Characters in words (R65, R89, R90) -/

/-- Character `k` of a word: bits [8k+7 : 8k] (R65). -/
def charOfWord (w : Word) (k : Nat) : Byte := w.extractLsb' (8 * k) 8

/-- The four characters of a CHARS word, the first in the least significant byte (R90). -/
def charsOfWord (w : Word) : Window := #v[charOfWord w 0, charOfWord w 1, charOfWord w 2, charOfWord w 3]

/-- The word whose characters are c0 (least significant), c1, c2, c3 (R65). -/
def wordOfChars (c0 c1 c2 c3 : Byte) : Word :=
  BitVec.ofNat 32 (c0.toNat + 2 ^ 8 * c1.toNat + 2 ^ 16 * c2.toNat + 2 ^ 24 * c3.toNat)

/-- The N characters a text payload carries: character i is character i mod 4 of text word i div 4 (R89). -/
def unpackText (n : Nat) (ws : List Word) : List Byte :=
  (List.range n).map fun i => charOfWord (ws.getD (i / 4) 0) (i % 4)

/-- A text packed into ⌈N/4⌉ words, 0 in the bytes at positions ≥ N (R89). -/
def packText (t : List Byte) : List Word :=
  (List.range (textWords t.length)).map fun j =>
    wordOfChars (t.getD (4 * j) 0) (t.getD (4 * j + 1) 0) (t.getD (4 * j + 2) 0) (t.getD (4 * j + 3) 0)

/-! ## Decoding (R92) -/

/-- The instruction a header and a payload of the right length carry: the fields R91 names for the opcode, reserved
bits dropped (R86), payload words in the order of R87. -/
def assemble (op : Op) (h : Word) (payload : List Word) : Instr :=
  let p := fun k => payload.getD k 0
  let text := unpackText (headerB3 h).toNat (payload.drop 2)
  match op with
  | .setupDisplay => .setupDisplay ((headerB3 h).extractLsb' 0 4) (headerF0 h)
  | .setDp => .setDp (headerF0 h)
  | .showStatic => .showStatic (headerRs h) (charsOfWord (p 0)) (p 1)
  | .cntConfig =>
    .cntConfig (headerRs h) (headerAs h) (headerF0 h) (headerB3 h) (p 0) (p 1) (p 2) (p 3) (p 4)
  | .cntPause => .cntPause
  | .cntResume => .cntResume
  | .cntToggle => .cntToggle
  | .cntReset => .cntReset
  | .cntSetCount => .cntSetCount (p 0)
  | .cntSetInc => .cntSetInc (p 0)
  | .cntSetDir => .cntSetDir (headerB3 h)
  | .cntSetStop => .cntSetStop (p 0)
  | .cntClearStop => .cntClearStop
  | .cntReadNorm => .cntReadNorm
  | .cntReadRaw => .cntReadRaw
  | .carConfig => .carConfig (headerRs h) (headerAs h) (headerF0 h) (headerF1 h) (p 0) (p 1) text
  | .carPause => .carPause
  | .carResume => .carResume
  | .carToggle => .carToggle
  | .carRestart => .carRestart
  | .sldConfig =>
    .sldConfig (headerRs h) (headerAs h) (headerF0 h) (headerF1 h) (headerF2 h) (p 0) (p 1) text
  | .sldPause => .sldPause
  | .sldResume => .sldResume
  | .sldToggle => .sldToggle
  | .sldRestart => .sldRestart

/-- The decoder of R92, total on every word list; it names why it rejects. -/
def decode (ws : List Word) : Except DecodeReject Instr :=
  match ws with
  | [] => .error .emptyCommand
  | h :: payload =>
    match Op.ofCode (headerOp h) with
    | none => .error .reservedOpcode
    | some op =>
      if payload.length + 1 = commandLength op (headerB3 h).toNat then .ok (assemble op h payload)
      else .error .wrongLength

/-- The instruction a port event carries: a command is decoded, a tick stands for itself (R92, R94); a reset carries
none. -/
def decodeEvent (e : Event) : Option Instr :=
  match e with
  | .cmd ws => (decode ws).toOption
  | .tick code => some (.tick code)
  | .reset => none

/-! ## Encoding (R81-R91) -/

/-- The words of a well-formed command, 0 in every reserved bit. A tick has no words: it has no encoding on the
command port (R94). -/
def encode (i : Instr) : List Word :=
  match i with
  | .setupDisplay bound pol => [headerWord Op.setupDisplay.code 0 0 pol false false (bound.setWidth 8)]
  | .setDp dp => [headerWord Op.setDp.code 0 0 dp false false 0]
  | .showStatic rs chars rper =>
    [headerWord Op.showStatic.code rs 0 false false false 0, wordOfChars chars[0] chars[1] chars[2] chars[3], rper]
  | .cntConfig rs asc stopEn dir start inc stop aper rper =>
    [headerWord Op.cntConfig.code rs asc stopEn false false dir, start, inc, stop, aper, rper]
  | .cntPause => [headerWord Op.cntPause.code 0 0 false false false 0]
  | .cntResume => [headerWord Op.cntResume.code 0 0 false false false 0]
  | .cntToggle => [headerWord Op.cntToggle.code 0 0 false false false 0]
  | .cntReset => [headerWord Op.cntReset.code 0 0 false false false 0]
  | .cntSetCount v => [headerWord Op.cntSetCount.code 0 0 false false false 0, v]
  | .cntSetInc v => [headerWord Op.cntSetInc.code 0 0 false false false 0, v]
  | .cntSetDir dir => [headerWord Op.cntSetDir.code 0 0 false false false dir]
  | .cntSetStop v => [headerWord Op.cntSetStop.code 0 0 false false false 0, v]
  | .cntClearStop => [headerWord Op.cntClearStop.code 0 0 false false false 0]
  | .cntReadNorm => [headerWord Op.cntReadNorm.code 0 0 false false false 0]
  | .cntReadRaw => [headerWord Op.cntReadRaw.code 0 0 false false false 0]
  | .carConfig rs asc cont pad aper rper text =>
    headerWord Op.carConfig.code rs asc cont pad false (BitVec.ofNat 8 text.length) :: aper :: rper :: packText text
  | .carPause => [headerWord Op.carPause.code 0 0 false false false 0]
  | .carResume => [headerWord Op.carResume.code 0 0 false false false 0]
  | .carToggle => [headerWord Op.carToggle.code 0 0 false false false 0]
  | .carRestart => [headerWord Op.carRestart.code 0 0 false false false 0]
  | .sldConfig rs asc cont pad coll aper rper text =>
    headerWord Op.sldConfig.code rs asc cont pad coll (BitVec.ofNat 8 text.length) :: aper :: rper :: packText text
  | .sldPause => [headerWord Op.sldPause.code 0 0 false false false 0]
  | .sldResume => [headerWord Op.sldResume.code 0 0 false false false 0]
  | .sldToggle => [headerWord Op.sldToggle.code 0 0 false false false 0]
  | .sldRestart => [headerWord Op.sldRestart.code 0 0 false false false 0]
  | .tick _ => []

/-- The port event an instruction is: `Tick(s)` for TICK, `Cmd` of its words for every command (R14). -/
def eventOf (i : Instr) : Event :=
  match i with
  | .tick code => .tick code
  | _ => .cmd (encode i)

/-! ## Opcode-table words -/

/-- The event whose bits, numbered as the opcode table numbers them, are `w`. A command is the header w[31:0] with the
payload words w[63:32], w[95:64], … filled up with 0 to the length the header gives (R88). The table's one row
narrower than a 32-bit word is TICK, "not a command word": it is the tick-port event of code w[2:0] (R94; log
entry 7). -/
def tableEvent (nbits w : Nat) : Event :=
  if nbits < 32 then .tick (BitVec.ofNat 3 w)
  else
    let h : Word := BitVec.ofNat 32 w
    let len := match Op.ofCode (headerOp h) with
      | some op => commandLength op (headerB3 h).toNat
      | none => 1
    .cmd ((List.range (max len ((nbits + 31) / 32))).map fun k => BitVec.ofNat 32 (w / 2 ^ (32 * k)))

/-- What the decoder reads from an opcode-table word. -/
def decodeTableWord (nbits w : Nat) : Option Instr := decodeEvent (tableEvent nbits w)

/-! ## Pseudo-commands (R97) -/

/-- The core command a pseudo-command expands to; `SHOW` takes at most four characters and pads on the right with
blanks (R97). -/
def expandPseudo (p : Pseudo) : Option Instr :=
  match p with
  | .showText chars rs rper =>
    if chars.length ≤ 4 then
      let c := fun k => chars.getD k blank
      some (.showStatic rs #v[c 0, c 1, c 2, c 3] rper)
    else none
  | .cntSetPause v => some (if v ≠ 0 then .cntPause else .cntResume)
  | .carSetPause v => some (if v ≠ 0 then .carPause else .carResume)
  | .sldSetPause v => some (if v ≠ 0 then .sldPause else .sldResume)

end Sys2Proof
end

