-- ==== Sys2Proof/Machine/State.lean ====
section
/-! DEFINITION. The architectural state of 10_state.md, all of it, as plain data, grouped as R20 and R21 group it; the
state after reset (R54); the reasons a step can stop (there are none: R290). -/

namespace Sys2Proof.Machine

/-- The behavior that owns the display buffer (R29). -/
inductive Behavior
  | none
  | static
  | counter
  | carousel
  | slider
deriving DecidableEq, Repr

/-- The counting direction C_DIR: 0 = increase, 1 = decrease (R37). -/
inductive Direction
  | increase
  | decrease
deriving DecidableEq, Repr

/-- An internal memory (K_BUF or S_BUF, R62, R63): its written entries as (index, character) pairs in canonical form,
indices strictly rising. An entry that is not listed has not been written since the last reset (R54). -/
abbrev Memory := List Host.Cell

/-- The output pin levels last driven (R28). -/
structure Pins where
  /-- PIN_SEG[6:0]: segments a-g at bits 0-6. -/
  seg : BitVec 7
  /-- PIN_DP. -/
  dp : Bool
  /-- PIN_DIG[3:0]: the digit enables. -/
  dig : BitVec 4
deriving DecidableEq, Repr

/-- Display state (R23-R28). -/
structure Display where
  /-- POL (R23). -/
  pol : Bool
  /-- BOUND[3:0] (R24). -/
  bound : BitVec 4
  /-- DP (R25). -/
  dp : Bool
  /-- DIGIDX (R26). -/
  digIdx : Position
  /-- DBUF[0..3] (R27). -/
  dbuf : Window
  /-- PIN_SEG, PIN_DP, PIN_DIG (R28). -/
  pins : Pins
deriving DecidableEq, Repr

/-- Behavior selection and clock binding (R29-R31). -/
structure Binding where
  /-- ACTIVE (R29). -/
  active : Behavior
  /-- RSRC; `none` is the spec's NONE (R30). -/
  rsrc : Option Source
  /-- RPER (R30). -/
  rper : Word
  /-- ASRC; `none` is the spec's NONE (R31). -/
  asrc : Option Source
  /-- APER (R31). -/
  aper : Word
deriving DecidableEq, Repr

/-- The counter slot (R33-R40). -/
structure Counter where
  /-- C_START (R33). -/
  start : Word
  /-- C_CUR (R34). -/
  cur : Word
  /-- C_NORM (R35). -/
  norm : Word
  /-- C_INC (R36). -/
  inc : Word
  /-- C_DIR (R37). -/
  dir : Direction
  /-- C_STOP (R38). -/
  stop : Word
  /-- C_STOPEN (R39). -/
  stopEn : Bool
  /-- C_PAUSE (R40). -/
  pause : Bool
deriving DecidableEq, Repr

/-- The carousel slot (R41-R45). -/
structure Carousel where
  /-- K_BUF (R41, R62). -/
  buf : Memory
  /-- K_LEN (R41). -/
  len : BitVec 16
  /-- K_IDX, read as signed (R42). -/
  idx : BitVec 16
  /-- K_CONT (R43). -/
  cont : Bool
  /-- K_PAUSE (R44). -/
  pause : Bool
  /-- K_OVF (R45). -/
  ovf : Bool
deriving DecidableEq, Repr

/-- The slider slot (R46-R49). -/
structure Slider where
  /-- S_BUF (R46, R63). -/
  buf : Memory
  /-- S_LEN (R46). -/
  len : BitVec 16
  /-- S_PAGE (R47). -/
  page : BitVec 16
  /-- S_CONT (R48). -/
  cont : Bool
  /-- S_PAUSE (R49). -/
  pause : Bool
deriving DecidableEq, Repr

/-- The machine: the state record of R21, and three fields of the model's own. -/
structure State where
  /-- R23-R28. -/
  display : Display
  /-- R29-R31. -/
  binding : Binding
  /-- R33-R40. -/
  counter : Counter
  /-- R41-R45. -/
  carousel : Carousel
  /-- R46-R49. -/
  slider : Slider
  /-- MODEL: the events the environment has still to deliver, first first; any list, so any order (R14, R298; log
  entry 1). -/
  inbox : List Event
  /-- MODEL: the output trace so far, oldest first; no rule reads it (R52, R271; log entry 2). -/
  trace : List OutputRecord
  /-- MODEL: the number of resets so far, the index of the free values of unspecified buffer entries (log entry 3). -/
  epoch : Nat
deriving DecidableEq, Repr

/-- Why the machine would stop with a fault: no reason exists. SSDB raises no exception and malformed input is never a
fault (R290, R293), so the type is empty: safe, since no step can answer a fault. -/
inductive Fault : Type
deriving DecidableEq, Repr

/-- Why a step would have no meaning. -/
inductive Refusal
  /-- Raised only by an arm of exec whose instruction has no meaning yet; no arm does. Safe: a refusal proves nothing. -/
  | notModelled (mnemonic : String)
deriving DecidableEq, Repr

/-- The display after reset: nothing bound, blanks, index 3, pins de-asserted under POL = 0 (R54). -/
def Display.reset : Display where
  pol := false
  bound := 0
  dp := false
  digIdx := 3
  dbuf := blankWindow
  pins := { seg := 0, dp := false, dig := 0xF }

/-- Nothing active and nothing bound (R54). -/
def Binding.reset : Binding where
  active := .none
  rsrc := none
  rper := 0
  asrc := none
  aper := 0

/-- The counter slot after reset (R54). -/
def Counter.reset : Counter where
  start := 0
  cur := 0
  norm := 0
  inc := 0
  dir := .increase
  stop := 0
  stopEn := false
  pause := false

/-- The carousel slot after reset: K_IDX = -1, no entry of K_BUF written (R54). -/
def Carousel.reset : Carousel where
  buf := []
  len := 0
  idx := -1
  cont := false
  pause := false
  ovf := false

/-- The slider slot after reset: no entry of S_BUF written (R54). -/
def Slider.reset : Slider where
  buf := []
  len := 0
  page := 0
  cont := false
  pause := false

/-- The machine right after reset (R54, R320): nothing delivered, nothing emitted. -/
def State.reset : State where
  display := .reset
  binding := .reset
  counter := .reset
  carousel := .reset
  slider := .reset
  inbox := []
  trace := []
  epoch := 0

/-- How every meaning ends. -/
abbrev Outcome := Host.Outcome State Fault Refusal

end Sys2Proof.Machine
end

