-- ==== Sys2Proof/Machine/Glyph.lean ====
section
/-! DEFINITION. The glyph encoder (40_glyph_encoder.md) and the parameters of this instance: the default glyph table
(R125) and the default polarity functions (00_scope.md R9). -/

namespace Sys2Proof.Machine

/-- `norm(c)` of R121, which is also R127's `upper`: 'a'..'z' to 'A'..'Z', every other code to itself. -/
def normChar (c : Byte) : Byte := if 0x61 ≤ c ∧ c ≤ 0x7A then c - 0x20 else c

/-- `encode(c)` of R120: codes ≥ 0x80 are blank, the others go through GLYPH_TABLE after normalization. -/
def encodeGlyph (P : Config.Params) (c : Byte) : BitVec 7 :=
  if 0x80 ≤ c then 0 else P.glyphTable ((normChar c).setWidth 7)

/-- R125, digits. -/
def digitGlyphs : List (BitVec 7 × BitVec 7) :=
  [(0x30, 0x3F), (0x31, 0x06), (0x32, 0x5B), (0x33, 0x4F), (0x34, 0x66),
   (0x35, 0x6D), (0x36, 0x7D), (0x37, 0x07), (0x38, 0x7F), (0x39, 0x6F)]

/-- R125, 'A' to 'M'. -/
def letterGlyphsAM : List (BitVec 7 × BitVec 7) :=
  [(0x41, 0x77), (0x42, 0x7C), (0x43, 0x39), (0x44, 0x5E), (0x45, 0x79), (0x46, 0x71), (0x47, 0x3D),
   (0x48, 0x76), (0x49, 0x30), (0x4A, 0x1E), (0x4B, 0x75), (0x4C, 0x38), (0x4D, 0x37)]

/-- R125, 'N' to 'Z'. -/
def letterGlyphsNZ : List (BitVec 7 × BitVec 7) :=
  [(0x4E, 0x54), (0x4F, 0x3F), (0x50, 0x73), (0x51, 0x67), (0x52, 0x50), (0x53, 0x6D), (0x54, 0x78),
   (0x55, 0x3E), (0x56, 0x1C), (0x57, 0x2A), (0x58, 0x76), (0x59, 0x6E), (0x5A, 0x5B)]

/-- R125, '-', '=', '_' and space. -/
def symbolGlyphs : List (BitVec 7 × BitVec 7) :=
  [(0x2D, 0x40), (0x3D, 0x48), (0x5F, 0x08), (0x20, 0x00)]

/-- The default GLYPH_TABLE (R125), blank for every code outside the supported set (R123). -/
def defaultGlyph (c : BitVec 7) : BitVec 7 :=
  ((digitGlyphs ++ letterGlyphsAM ++ letterGlyphsNZ ++ symbolGlyphs).lookup c).getD 0

/-- The parameters this instance takes: the defaults of R125 and R9 (log entries 4 and 5). POL = 0: segments and
decimal point active-high, digits active-low; POL = 1: the reverse. -/
def blockParams : Config.Params where
  glyphTable := defaultGlyph
  segActiveHigh := fun pol => !pol
  digActiveHigh := fun pol => pol

end Sys2Proof.Machine
end

