-- ==== Sys2Proof/Machine/Ops.lean ====
section
/-! DEFINITION. The named operations every meaning is made of: the state's setters, the internal memories (20_memory.md),
output records (R11), `ignore` (R15), the pin drive (R144) and the binding procedure (R272). SSDB has no exception to
take (R290): what stands in its place is `ignore`, and a tick's handler entry, which saves nothing (R299). -/

namespace Sys2Proof.Machine

/-! ## Setters -/

/-- Replace the display group. -/
def State.setDisplay (d : Display) (s : State) : State := { s with display := d }
/-- Replace the binding group. -/
def State.setBinding (b : Binding) (s : State) : State := { s with binding := b }
/-- Replace the counter slot. -/
def State.setCounter (c : Counter) (s : State) : State := { s with counter := c }
/-- Replace the carousel slot. -/
def State.setCarousel (k : Carousel) (s : State) : State := { s with carousel := k }
/-- Replace the slider slot. -/
def State.setSlider (l : Slider) (s : State) : State := { s with slider := l }
/-- Replace the pending events. -/
def State.setInbox (es : List Event) (s : State) : State := { s with inbox := es }
/-- `emit` of R11 for a list of records: append them to the output trace in order. -/
def State.emit (rs : List OutputRecord) (s : State) : State := { s with trace := s.trace ++ rs }
/-- Write all four entries of DBUF (R64). -/
def State.setDbuf (w : Window) (s : State) : State := s.setDisplay { s.display with dbuf := w }
/-- Write ACTIVE (R29). -/
def State.setActive (b : Behavior) (s : State) : State := s.setBinding { s.binding with active := b }

/-- `ignore` of R11 and R15: the event ends, nothing changes and nothing is emitted. -/
def ignore (s : State) : Outcome := .next s

/-! ## Internal memories -/

/-- The canonical form: indices strictly rising. -/
def Memory.wf : Memory → Bool
  | [] => true
  | [_] => true
  | (a, _) :: (b, v) :: m => decide (a < b) && Memory.wf ((b, v) :: m)

/-- The entry at index `a`, if it is listed. -/
def Memory.read? : Memory → Nat → Option Byte
  | [], _ => none
  | (b, v) :: m, a => if a = b then some v else Memory.read? m a

/-- Write one entry, keeping the canonical form. -/
def Memory.write : Memory → Nat → Byte → Memory
  | [], a, v => [(a, v)]
  | (b, w) :: m, a, v =>
    if a < b then (a, v) :: (b, w) :: m
    else if a = b then (a, v) :: m
    else (b, w) :: Memory.write m a v

/-- Write a sequence from index `a` upwards; the other entries keep what they hold (R62, R63). -/
def Memory.writeFrom : Memory → Nat → List Byte → Memory
  | m, _, [] => m
  | m, a, v :: vs => Memory.writeFrom (Memory.write m a v) (a + 1) vs

/-- Entry `j` of an internal memory: what was last written there, else the free value of the current reset epoch
(R54; log entry 3). -/
def Memory.entry (b : Config.Buffer) (epoch : Nat) (m : Memory) (j : Nat) : Byte :=
  (Memory.read? m j).getD (Config.unspecifiedEntry b epoch j)

/-! ## Pins (R144) -/

/-- `drive(segA, dpA, digA)` of R144: the levels of the logical outputs under POL. The decimal point follows the
segment polarity. -/
def driveLevels (P : Config.Params) (pol : Bool) (segA : BitVec 7) (dpA : Bool) (digA : BitVec 4) : Pins where
  seg := if P.segActiveHigh pol then segA else ~~~segA
  dp := if P.segActiveHigh pol then dpA else !dpA
  dig := if P.digActiveHigh pol then digA else ~~~digA

/-- Drive the pins (R144). -/
def drive (P : Config.Params) (segA : BitVec 7) (dpA : Bool) (digA : BitVec 4) (s : State) : State :=
  s.setDisplay { s.display with pins := driveLevels P s.display.pol segA dpA digA }

/-! ## Bind (R272) -/

/-- The `disarm` record of a bound source, none for NONE. -/
def disarmOf : Option Source → List OutputRecord
  | none => []
  | some src => [.disarm src]

/-- The `arm` record of a source and its period, none for NONE. -/
def armOf : Option Source → Word → List OutputRecord
  | none, _ => []
  | some src, p => [.arm src p]

/-- The records of R272, in order: disarm the old refresh source, disarm the old animation source, arm the new refresh
source, arm the new animation source. -/
def bindRecords (old : Binding) (rs : Source) (rp : Word) (anim : Option Source) (ap : Word) : List OutputRecord :=
  disarmOf old.rsrc ++ disarmOf old.asrc ++ [.arm rs rp] ++ armOf anim ap

/-- `Bind(rs, rp, as, ap)` of R272. -/
def bindSources (rs : Source) (rp : Word) (anim : Option Source) (ap : Word) (s : State) : State :=
  (s.setBinding { s.binding with rsrc := some rs, rper := rp, asrc := anim, aper := ap }).emit
    (bindRecords s.binding rs rp anim ap)

end Sys2Proof.Machine
end

