-- ==== Sys2Proof/Machine/Operands.lean ====
section
/-! DEFINITION. The operand forms a meaning checks or converts: source codes (R82, R83, R274), the pair of sources of a
configure (R273), direction codes (R85), texts (R6). Fields and payload words are taken from the command by the decoder
(Sys2Proof/Decode.lean). -/

namespace Sys2Proof.Machine

/-- The source a 3-bit code names: 0..4, none for 5..7 (R4, R82). -/
def sourceOf (code : SourceCode) : Option Source :=
  if h : code.toNat < 5 then some ⟨code.toNat, h⟩ else none

/-- The refresh and animation sources of a counter, carousel or slider configure, if its checks pass: both codes name a
source (R82, R83, R274) and the two differ (R273). -/
def configSources (rs asc : SourceCode) : Option (Source × Source) :=
  match sourceOf rs, sourceOf asc with
  | some r, some a => if a = r then none else some (r, a)
  | _, _ => none

/-- The direction a code names: 0x00 increase, 0x01 decrease, every other value unrecognized (R85, R180). -/
def directionOf (code : Byte) : Option Direction :=
  if code = 0x00 then some .increase else if code = 0x01 then some .decrease else none

/-- A text is accepted if N ≤ TEXT_CAP (R6, R211, R242). -/
def textFits (text : List Byte) : Bool := decide (text.length ≤ Config.textCap)

/-- A 16-bit register read as a signed integer, for K_IDX (R7, R42). -/
def s16 (v : BitVec 16) : Int := v.toInt

/-- `s32(v)` of R11. -/
def s32 (v : Word) : Int := v.toInt

/-- `u32(x)` of R11. -/
def u32 (x : Int) : Word := BitVec.ofInt 32 x

end Sys2Proof.Machine
end

