-- ==== Sys2Proof/Machine/Flags.lean ====
section
/-! DEFINITION. The status flags' computations. SSDB has no condition codes (R50); its flags are C_PAUSE, C_STOPEN,
K_PAUSE, K_OVF and S_PAUSE. Each definition gives the value a rule writes. -/

namespace Sys2Proof.Machine

/-- `1 - flag`: the toggles (R176, R216, R246). -/
def toggled (flag : Bool) : Bool := !flag

/-- C_PAUSE after a counting step: set if the stop is enabled and the raw count is at the stop value (R171). -/
def counterHalt (stopEn : Bool) (cur stop : Word) : Bool := stopEn && cur == stop

/-- C_PAUSE after CNT_SET_STOP V: 1 if V = C_CUR, else 0 (R181). -/
def setStopPause (v cur : Word) : Bool := v == cur

/-- K_OVF is set by a tick: the carousel is one-shot and the index is at or past max(K_LEN - 4, 0) (R212). -/
def carouselTerminal (cont : Bool) (idx : Int) (len : Nat) : Bool :=
  !cont && decide (max ((len : Int) - 4) 0 ≤ idx)

/-- The carousel loops: it is continuous and the index reached the sequence length (R212). -/
def carouselLoops (cont : Bool) (idx : Int) (len : Nat) : Bool := cont && decide ((len : Int) ≤ idx)

/-- The advanced page lies past the last full page: p > S_LEN - 4, over the integers (R243). -/
def pagePastEnd (p len : Nat) : Bool := decide ((len : Int) - 4 < p)

end Sys2Proof.Machine
end

