-- ==== Sys2Proof/Machine/Carousel.lean ====
section
/-! DEFINITION. 43_carousel.md: the working buffer, the window read, the transition-tick handler and the carousel
commands. -/

namespace Sys2Proof.Machine

/-- `car_build(T, N, cont, pad)` of R210: the working buffer and the sequence length. -/
def carBuild (text : List Byte) (cont pad : Bool) : List Byte × Nat :=
  if pad then (blanks 4 ++ text ++ (if cont then [] else blanks 4), text.length + 4)
  else (text ++ blanks 1, text.length + 1)

/-- Entry (i + k) mod K_LEN of K_BUF, the remainder Euclidean (R213). -/
def carChar (epoch : Nat) (c : Carousel) (i : Int) (k : Nat) : Byte :=
  Memory.entry .kBuf epoch c.buf ((i + k) % c.len.toNat).toNat

/-- `win(i)` of R213. -/
def carWindow (epoch : Nat) (c : Carousel) (i : Int) : Window :=
  #v[carChar epoch c i 0, carChar epoch c i 1, carChar epoch c i 2, carChar epoch c i 3]

/-- K_IDX after the advance of a tick: one further unless at the terminal index or paused (R212). -/
def carAdvance (c : Carousel) : BitVec 16 := if !c.ovf && !c.pause then c.idx + 1 else c.idx

/-- The carousel slot after a transition tick (R212): advance, then the loop check, then the terminal check. -/
def carouselTick (c : Carousel) : Carousel :=
  let i := carAdvance c
  { c with
    idx := if carouselLoops c.cont (s16 i) c.len.toNat then -1 else i
    ovf := c.ovf || carouselTerminal c.cont (s16 i) c.len.toNat }

/-- CAR_TICK (R212): the window is read after the advance and before both checks. -/
def carTick (s : State) : State :=
  if s.carousel.len = 0 then s
  else
    (s.setDbuf (carWindow s.epoch s.carousel (s16 (carAdvance s.carousel)))).setCarousel (carouselTick s.carousel)

/-- The carousel slot a configure makes (R211); that entries of K_BUF past the new working buffer stay is a
DESIGN CHOICE (log entry 11): the spec lets them hold any value. -/
def carConfigured (c : Carousel) (text : List Byte) (cont pad : Bool) : Carousel :=
  let built := carBuild text cont pad
  { buf := Memory.writeFrom c.buf 0 built.1, len := BitVec.ofNat 16 built.2, idx := -1, cont := cont, pause := false,
    ovf := false }

/-- CAR_CONFIG (R211): the display buffer is primed with win(0). -/
def execCarConfig (rs asc : SourceCode) (cont pad : Bool) (aper rper : Word) (text : List Byte) (s : State) : Outcome :=
  match configSources rs asc with
  | none => ignore s
  | some (r, a) =>
    if textFits text then
      let c := carConfigured s.carousel text cont pad
      .next (bindSources r rper (some a) aper
        (((s.setCarousel c).setDbuf (carWindow s.epoch c 0)).setActive .carousel))
    else ignore s

/-- CAR_PAUSE (R214). -/
def execCarPause (s : State) : Outcome := .next (s.setCarousel { s.carousel with pause := true })

/-- CAR_RESUME (R215): K_OVF stays. -/
def execCarResume (s : State) : Outcome := .next (s.setCarousel { s.carousel with pause := false })

/-- CAR_TOGGLE (R216). -/
def execCarToggle (s : State) : Outcome := .next (s.setCarousel { s.carousel with pause := toggled s.carousel.pause })

/-- CAR_RESTART (R217). -/
def execCarRestart (s : State) : Outcome :=
  .next (s.setCarousel { s.carousel with ovf := false, idx := -1, pause := false })

end Sys2Proof.Machine
end

