-- ==== Sys2Proof/Machine/Counter.lean ====
section
/-! DEFINITION. 42_counter.md: the fold, the projection, the counting-tick handler and the counter commands. -/

namespace Sys2Proof.Machine

/-- `fold(v)` of R172: one correction by 10000 towards [0, 9999]. -/
def fold (v : Word) : Word :=
  let n := s32 v
  u32 (if n > 9999 then n - 10000 else if n < 0 then n + 10000 else n)

/-- The character of a decimal digit: 0x30 + d (R173). -/
def digitChar (d : Nat) : Byte := 0x30 + BitVec.ofNat 8 d

/-- The four decimal digits of a number below 10000, thousands first (R173). -/
def decimalWindow (n : Nat) : Window :=
  #v[digitChar (n / 1000), digitChar (n / 100 % 10), digitChar (n / 10 % 10), digitChar (n % 10)]

/-- `proj(v)` of R173: the four decimal digits of s32(v) mod 10000, thousands first. -/
def proj (v : Word) : Window := decimalWindow (s32 v % 10000).toNat

/-- A counting step: apply C_INC in the configured direction, modulo 2^32 (R171, R185). -/
def countStep (dir : Direction) (v inc : Word) : Word :=
  match dir with
  | .increase => v + inc
  | .decrease => v - inc

/-- The counter slot after a counting tick (R171). -/
def counterTick (c : Counter) : Counter :=
  if c.pause then c
  else
    let cur := countStep c.dir c.cur c.inc
    { c with
      cur := cur
      norm := fold (countStep c.dir c.norm c.inc)
      pause := counterHalt c.stopEn cur c.stop }

/-- CNT_TICK (R171): the display buffer is written whether the counter is paused or not. -/
def cntTick (s : State) : State :=
  let c := counterTick s.counter
  (s.setCounter c).setDbuf (proj c.norm)

/-- CNT_CONFIG (R170): START is not folded and the display buffer is not written. -/
def execCntConfig (rs asc : SourceCode) (stopEn : Bool) (dir : Byte) (start inc stop aper rper : Word) (s : State) :
    Outcome :=
  match configSources rs asc, directionOf dir with
  | some (r, a), some d =>
    .next (bindSources r rper (some a) aper
      ((s.setCounter
        { start := start, cur := start, norm := start, inc := inc, dir := d, stop := stop, stopEn := stopEn,
          pause := false }).setActive .counter))
  | _, _ => ignore s

/-- CNT_PAUSE (R174). -/
def execCntPause (s : State) : Outcome := .next (s.setCounter { s.counter with pause := true })

/-- CNT_RESUME (R175). -/
def execCntResume (s : State) : Outcome := .next (s.setCounter { s.counter with pause := false })

/-- CNT_TOGGLE (R176). -/
def execCntToggle (s : State) : Outcome := .next (s.setCounter { s.counter with pause := toggled s.counter.pause })

/-- CNT_RESET (R177). -/
def execCntReset (s : State) : Outcome :=
  .next (s.setCounter { s.counter with cur := s.counter.start, norm := s.counter.start, pause := false })

/-- CNT_SET_COUNT (R178). -/
def execCntSetCount (v : Word) (s : State) : Outcome :=
  .next (s.setCounter { s.counter with start := v, cur := v, norm := v, pause := false })

/-- CNT_SET_INC (R179). -/
def execCntSetInc (v : Word) (s : State) : Outcome := .next (s.setCounter { s.counter with inc := v })

/-- CNT_SET_DIR (R180): an unrecognized code is ignored. -/
def execCntSetDir (dir : Byte) (s : State) : Outcome :=
  match directionOf dir with
  | some d => .next (s.setCounter { s.counter with dir := d })
  | none => ignore s

/-- CNT_SET_STOP (R181). -/
def execCntSetStop (v : Word) (s : State) : Outcome :=
  .next (s.setCounter { s.counter with stop := v, stopEn := true, pause := setStopPause v s.counter.cur })

/-- CNT_CLEAR_STOP (R182). -/
def execCntClearStop (s : State) : Outcome := .next (s.setCounter { s.counter with stopEn := false })

/-- CNT_READ_NORM (R183). -/
def execCntReadNorm (s : State) : Outcome := .next (s.emit [.resp s.counter.norm])

/-- CNT_READ_RAW (R184). -/
def execCntReadRaw (s : State) : Outcome := .next (s.emit [.resp s.counter.cur])

end Sys2Proof.Machine
end

