-- ==== Sys2Proof/Machine/Display.lean ====
section
/-! DEFINITION. 41_digit_mux.md: the refresh handler and the display commands. -/

namespace Sys2Proof.Machine

/-- The logical digit enables at position `i`: only `i`, and only if it is bound (R140, R143). -/
def digitEnable (bound : BitVec 4) (i : Position) : BitVec 4 :=
  if bound.getLsbD i.val then (1 : BitVec 4) <<< i.val else 0

/-- REFRESH (R140), for any parameters: advance the index, then drive the new position's glyph, the decimal point and
the position's enable. -/
def refreshWith (P : Config.Params) (s : State) : State :=
  let i := s.display.digIdx + 1
  drive P (encodeGlyph P s.display.dbuf[i]) s.display.dp (digitEnable s.display.bound i)
    (s.setDisplay { s.display with digIdx := i })

/-- SETUP_DISPLAY (R150), for any parameters: every pin is driven de-asserted under the new polarity. -/
def setupDisplayWith (P : Config.Params) (bound : BitVec 4) (pol : Bool) (s : State) : State :=
  drive P 0 false 0 (s.setDisplay { s.display with pol := pol, bound := bound })

/-- SETUP_DISPLAY (R150). -/
def execSetupDisplay (bound : BitVec 4) (pol : Bool) (s : State) : Outcome :=
  .next (setupDisplayWith blockParams bound pol s)

/-- SET_DP (R151): no pin changes until the next REFRESH. -/
def execSetDp (dp : Bool) (s : State) : Outcome :=
  .next (s.setDisplay { s.display with dp := dp })

/-- SHOW_STATIC (R152): the characters are stored unnormalized; there is no animation source. -/
def execShowStatic (rs : SourceCode) (chars : Window) (rper : Word) (s : State) : Outcome :=
  match sourceOf rs with
  | none => ignore s
  | some r => .next (bindSources r rper none 0 ((s.setDbuf chars).setActive .static))

end Sys2Proof.Machine
end

