-- ==== Sys2Proof/Machine/Slider.lean ====
section
/-! DEFINITION. 44_slider.md: the collapse, the working buffer, the page read, the transition-tick handler and the
slider commands. -/

namespace Sys2Proof.Machine

/-- Character i is an isolated space (R240): it is a space, and neither neighbour in the original text is one; a
boundary counts as no space. -/
def isolatedSpace (text : List Byte) (i : Nat) : Bool :=
  text.getD i 0 == blank
    && (i == 0 || text.getD (i - 1) 0 != blank)
    && (i + 1 == text.length || text.getD (i + 1) 0 != blank)

/-- `collapse(T, N)` of R240: the text without its isolated spaces. -/
def collapse (text : List Byte) : List Byte :=
  (List.range text.length).filterMap fun i => if isolatedSpace text i then none else some (text.getD i 0)

/-- `m4` of R241: the length rounded up to a multiple of 4. -/
def roundUp4 (m : Nat) : Nat := 4 * ((m + 3) / 4)

/-- `sld_build(T, N, pad, coll)` of R241: the working buffer W; the sequence length is its length. -/
def sldBuild (text : List Byte) (pad coll : Bool) : List Byte :=
  let t := if coll then collapse text else text
  (if pad then blanks 4 else []) ++ t ++ blanks (roundUp4 t.length - t.length)

/-- `rd(j)` of R241: past S_LEN a read gives 0x20 and does not touch the memory. -/
def sldChar (epoch : Nat) (l : Slider) (j : Nat) : Byte :=
  if j < l.len.toNat then Memory.entry .sBuf epoch l.buf j else blank

/-- `page(p)` of R241. -/
def sldPage (epoch : Nat) (l : Slider) (p : Nat) : Window :=
  #v[sldChar epoch l p, sldChar epoch l (p + 1), sldChar epoch l (p + 2), sldChar epoch l (p + 3)]

/-- The slider slot after a transition tick (R243): advance by a page, and past the last page wrap or halt. -/
def sliderTick (l : Slider) : Slider :=
  let p := l.page.toNat + 4
  if l.pause then l
  else if pagePastEnd p l.len.toNat then
    if l.cont then { l with page := 0 } else { l with pause := true }
  else { l with page := BitVec.ofNat 16 p }

/-- SLD_TICK (R243): the page is read before the advance. -/
def sldTick (s : State) : State :=
  (s.setDbuf (sldPage s.epoch s.slider s.slider.page.toNat)).setSlider (sliderTick s.slider)

/-- The slider slot a configure makes (R242); that entries of S_BUF past the new length stay is a
DESIGN CHOICE (log entry 11): the spec lets them hold any value. -/
def sldConfigured (l : Slider) (text : List Byte) (cont pad coll : Bool) : Slider :=
  let w := sldBuild text pad coll
  { buf := Memory.writeFrom l.buf 0 w, len := BitVec.ofNat 16 w.length, page := 0, cont := cont, pause := false }

/-- SLD_CONFIG (R242): the display buffer is primed with page(0). -/
def execSldConfig (rs asc : SourceCode) (cont pad coll : Bool) (aper rper : Word) (text : List Byte) (s : State) :
    Outcome :=
  match configSources rs asc with
  | none => ignore s
  | some (r, a) =>
    if textFits text then
      let l := sldConfigured s.slider text cont pad coll
      .next (bindSources r rper (some a) aper
        (((s.setSlider l).setDbuf (sldPage s.epoch l 0)).setActive .slider))
    else ignore s

/-- SLD_PAUSE (R244). -/
def execSldPause (s : State) : Outcome := .next (s.setSlider { s.slider with pause := true })

/-- SLD_RESUME (R245). -/
def execSldResume (s : State) : Outcome := .next (s.setSlider { s.slider with pause := false })

/-- SLD_TOGGLE (R246). -/
def execSldToggle (s : State) : Outcome := .next (s.setSlider { s.slider with pause := toggled s.slider.pause })

/-- SLD_RESTART (R247). -/
def execSldRestart (s : State) : Outcome := .next (s.setSlider { s.slider with page := 0, pause := false })

end Sys2Proof.Machine
end

