-- ==== Sys2Proof/Machine/Scheduler.lean ====
section
/-! DEFINITION. 45_scheduler.md: the dispatch of a tick (R275). Entering a handler saves nothing and changes no mode or
mask (R299); leaving it restores nothing (R300). -/

namespace Sys2Proof.Machine

/-- The handler the animation source runs: that of the active behavior (R275). NONE and STATIC have none (R153). -/
def animationTick (s : State) : State :=
  match s.binding.active with
  | .counter => cntTick s
  | .carousel => carTick s
  | .slider => sldTick s
  | .none => s
  | .static => s

/-- TICK (R275), for any parameters: dispatched by the bindings in force now (R276); the refresh role is looked at
first. -/
def tickWith (P : Config.Params) (code : SourceCode) (s : State) : State :=
  match sourceOf code with
  | none => s
  | some src =>
    if s.binding.rsrc = some src then refreshWith P s
    else if s.binding.asrc = some src then animationTick s
    else s

/-- TICK (R275). -/
def execTick (code : SourceCode) (s : State) : Outcome := .next (tickWith blockParams code s)

end Sys2Proof.Machine
end

