-- ==== Sys2Proof/Machine/Dispatch.lean ====
section
/-! DEFINITION. One arm per instruction, each one call of its meaning. -/

namespace Sys2Proof.Machine

/-- What each instruction does (R91). -/
def exec (i : Instr) (s : State) : Host.Outcome State Fault Refusal :=
  match i with
  | .setupDisplay bound pol => Sys2Proof.Machine.execSetupDisplay bound pol s
  | .setDp dp => Sys2Proof.Machine.execSetDp dp s
  | .showStatic rs chars rper => Sys2Proof.Machine.execShowStatic rs chars rper s
  | .cntConfig rs asc stopEn dir start inc stop aper rper => Sys2Proof.Machine.execCntConfig rs asc stopEn dir start inc stop aper rper s
  | .cntPause => Sys2Proof.Machine.execCntPause s
  | .cntResume => Sys2Proof.Machine.execCntResume s
  | .cntToggle => Sys2Proof.Machine.execCntToggle s
  | .cntReset => Sys2Proof.Machine.execCntReset s
  | .cntSetCount v => Sys2Proof.Machine.execCntSetCount v s
  | .cntSetInc v => Sys2Proof.Machine.execCntSetInc v s
  | .cntSetDir dir => Sys2Proof.Machine.execCntSetDir dir s
  | .cntSetStop v => Sys2Proof.Machine.execCntSetStop v s
  | .cntClearStop => Sys2Proof.Machine.execCntClearStop s
  | .cntReadNorm => Sys2Proof.Machine.execCntReadNorm s
  | .cntReadRaw => Sys2Proof.Machine.execCntReadRaw s
  | .carConfig rs asc cont pad aper rper text => Sys2Proof.Machine.execCarConfig rs asc cont pad aper rper text s
  | .carPause => Sys2Proof.Machine.execCarPause s
  | .carResume => Sys2Proof.Machine.execCarResume s
  | .carToggle => Sys2Proof.Machine.execCarToggle s
  | .carRestart => Sys2Proof.Machine.execCarRestart s
  | .sldConfig rs asc cont pad coll aper rper text => Sys2Proof.Machine.execSldConfig rs asc cont pad coll aper rper text s
  | .sldPause => Sys2Proof.Machine.execSldPause s
  | .sldResume => Sys2Proof.Machine.execSldResume s
  | .sldToggle => Sys2Proof.Machine.execSldToggle s
  | .sldRestart => Sys2Proof.Machine.execSldRestart s
  | .tick code => Sys2Proof.Machine.execTick code s

end Sys2Proof.Machine
end

