-- ==== Sys2Proof/Machine/Events.lean ====
section
/-! DEFINITION. What one delivered event does (00_scope.md R14), and how the environment's events reach a step. -/

namespace Sys2Proof.Machine

/-- A reset event (R320): every state element takes its reset value, nothing is emitted. DESIGN CHOICE (log entry 10):
what the environment still holds and what was emitted before stay. The buffers' unspecified contents are drawn anew (log
entry 3). -/
def powerCycle (s : State) : State :=
  { State.reset with inbox := s.inbox, trace := s.trace, epoch := s.epoch + 1 }

/-- One event (R14): a command runs the instruction it decodes to and is ignored if it decodes to none (R92); a tick
runs TICK (R94); a reset resets. -/
def deliver (e : Event) (s : State) : Outcome :=
  match e with
  | .cmd ws =>
    match decode ws with
    | .ok i => exec i s
    | .error _ => ignore s
  | .tick code => exec (.tick code) s
  | .reset => .next (powerCycle s)

/-- The next event the environment delivers, and the state with it taken out of the inbox. -/
def takeEvent (s : State) : Option (Event × State) :=
  match s.inbox with
  | [] => none
  | e :: rest => some (e, s.setInbox rest)

/-- Between events the block holds its state and does nothing (R307). -/
def idle (s : State) : Outcome := .next s

/-- Deliver `e` next, before what is pending. -/
def pushEvent (e : Event) (s : State) : State := s.setInbox (e :: s.inbox)

end Sys2Proof.Machine
end

