-- ==== Sys2Proof/Machine/Step.lean ====
section
/-! DEFINITION. One step: the next event of the inbox, handled completely (00_scope.md R14, R70); with none pending the
block idles (R307). -/

namespace Sys2Proof.Machine

/-- One step of the block. -/
def step (s : State) : Host.Outcome State Fault Refusal :=
  match takeEvent s with
  | none => idle s
  | some (e, s') => deliver e s'

/-- The state whose next step delivers the event of an opcode-table word, and runs the instruction it carries. -/
def State.withFetchWord (s : State) (nbits w : Nat) : State := pushEvent (tableEvent nbits w) s

end Sys2Proof.Machine
end

