-- ==== Sys2Proof/Safety.lean ====
section
/-! DEFINITION. What a safe state and a run are, in the terms the statements use: the invariant of the state rules of
10_state.md, runs (70_reset_and_hazards.md R333), and when two states cannot be told apart (R75, R334). -/

namespace Sys2Proof.Machine

/-- Every listed index of an internal memory lies below its size (R62, R63). -/
def Memory.within (size : Nat) (m : Memory) : Bool := m.all fun c => decide (c.1 < size)

/-- Every entry below `len` has been written (R75). -/
def Memory.filled (len : Nat) (m : Memory) : Bool := (List.range len).all fun j => (Memory.read? m j).isSome

/-- Digit position k is enabled by the pin levels, under the polarity the digit pins have for POL (R9, R142). -/
def digitEnabled (P : Config.Params) (d : Display) (k : Position) : Bool :=
  if P.digActiveHigh d.pol then d.pins.dig.getLsbD k.val else !d.pins.dig.getLsbD k.val

/-- Segment j is lit by the pin levels (R9, R142). -/
def segmentLit (P : Config.Params) (d : Display) (j : Nat) : Bool :=
  if P.segActiveHigh d.pol then d.pins.seg.getLsbD j else !d.pins.seg.getLsbD j

/-- The decimal point is lit by the pin levels; it follows the segment polarity (R144). -/
def pointLit (P : Config.Params) (d : Display) : Bool :=
  if P.segActiveHigh d.pol then d.pins.dp else !d.pins.dp

/-- The behavior has an animation role (R270). -/
def Behavior.animated : Behavior → Bool
  | .counter | .carousel | .slider => true
  | .none | .static => false

/-- The terminal index of a one-shot carousel: max(K_LEN - 4, 0) (R212). -/
def carLast (c : Carousel) : Int := max ((c.len.toNat : Int) - 4) 0

/-- The bindings agree with the active behavior (R29-R32, R270, R275). -/
structure Binding.Ok (b : Binding) : Prop where
  /-- R32: the two roles have different sources. -/
  sourcesDiffer : ∀ a, b.asrc = some a → b.rsrc ≠ some a
  /-- R31, R275: an animation source is bound exactly while an animated behavior is active. -/
  animation : b.asrc.isSome = b.active.animated
  /-- A refresh source is bound exactly while some behavior is active (R272). -/
  refresh : b.rsrc.isSome = (b.active != .none)

/-- The carousel slot is one the rules can make (R41-R45, R62, R75). -/
structure Carousel.Ok (c : Carousel) : Prop where
  /-- K_BUF is in canonical form. -/
  bufWf : Memory.wf c.buf = true
  /-- K_BUF has 256 entries (R62). -/
  bufWithin : Memory.within Config.kBufSize c.buf = true
  /-- Every entry a rule can read has been written (R75). -/
  bufFilled : Memory.filled c.len.toNat c.buf = true
  /-- R41. -/
  lenLe : c.len.toNat ≤ 252
  /-- R42. -/
  idxGe : -1 ≤ s16 c.idx
  /-- A continuous carousel's index stays below the sequence length (R212). -/
  idxCont : c.cont = true → s16 c.idx < c.len.toNat
  /-- A one-shot carousel's index stops at the terminal index (R212). -/
  idxOnce : c.cont = false → s16 c.idx ≤ carLast c
  /-- K_OVF is 1 exactly at the terminal index of a one-shot carousel (R45, R212). -/
  ovfIff : c.ovf = (!c.cont && decide (s16 c.idx = carLast c))

/-- The slider slot is one the rules can make (R46-R49, R63, R75). -/
structure Slider.Ok (l : Slider) : Prop where
  /-- S_BUF is in canonical form. -/
  bufWf : Memory.wf l.buf = true
  /-- S_BUF has 252 entries (R63). -/
  bufWithin : Memory.within Config.sBufSize l.buf = true
  /-- Every entry a rule can read has been written (R75). -/
  bufFilled : Memory.filled l.len.toNat l.buf = true
  /-- R46: a multiple of 4 in 0..252. -/
  lenLe : l.len.toNat ≤ 252 ∧ l.len.toNat % 4 = 0
  /-- R47: a multiple of 4 in 0..248, a whole page of the sequence unless it is 0. -/
  pageOk : l.page.toNat % 4 = 0 ∧ (l.page.toNat = 0 ∨ l.page.toNat + 4 ≤ l.len.toNat)

/-- The invariant of the block. -/
structure Inv (s : State) : Prop where
  /-- R29-R32. -/
  binding : s.binding.Ok
  /-- A carousel that is active has been configured, so K_LEN ≥ 1 (R41, R212). -/
  carouselActive : s.binding.active = .carousel → s.carousel.len ≠ 0
  /-- R41-R45. -/
  carousel : s.carousel.Ok
  /-- R46-R49. -/
  slider : s.slider.Ok
  /-- R142, R149: an enabled position is the lit one, and it is bound. -/
  digits : ∀ k, digitEnabled blockParams s.display k = true →
    k = s.display.digIdx ∧ s.display.bound.getLsbD k.val = true

/-- A run: from reset, with any list of events to come (R333). Every order of events is some inbox (R298). -/
inductive Reachable : State → Prop
  | reset (events : List Event) : Reachable (State.reset.setInbox events)
  | step (s t : State) : Reachable s → step s = .next t → Reachable t

/-- Two internal memories agree below a length. -/
def Memory.AgreeBelow (len : Nat) (b : Config.Buffer) (e₁ e₂ : Nat) (m₁ m₂ : Memory) : Prop :=
  ∀ j, j < len → Memory.entry b e₁ m₁ j = Memory.entry b e₂ m₂ j

/-- Two states that differ at most in buffer entries at or beyond the current lengths (R75), and in the number of resets
so far, which only indexes the values such entries read as. -/
structure SameBelowLengths (s t : State) : Prop where
  /-- The display groups are equal. -/
  display : s.display = t.display
  /-- The binding groups are equal. -/
  binding : s.binding = t.binding
  /-- The counter slots are equal. -/
  counter : s.counter = t.counter
  /-- The carousel slots are equal but for K_BUF. -/
  carousel : { s.carousel with buf := [] } = { t.carousel with buf := [] }
  /-- K_BUF agrees below K_LEN. -/
  kBuf : Memory.AgreeBelow s.carousel.len.toNat .kBuf s.epoch t.epoch s.carousel.buf t.carousel.buf
  /-- The slider slots are equal but for S_BUF. -/
  slider : { s.slider with buf := [] } = { t.slider with buf := [] }
  /-- S_BUF agrees below S_LEN. -/
  sBuf : Memory.AgreeBelow s.slider.len.toNat .sBuf s.epoch t.epoch s.slider.buf t.slider.buf
  /-- The pending events are equal. -/
  inbox : s.inbox = t.inbox
  /-- The output traces are equal. -/
  trace : s.trace = t.trace

end Sys2Proof.Machine
end

