-- ==== Sys2Proof/Certificates/Slice0/Obligations.lean ====
section
/-! DEFINITION. The statements for the provers. Each docstring names the rules of spec/ its statement formalises. Where a
statement gives the next state as the old one with fields replaced, it says the whole frame with it: every field not
named there is unchanged, the pending events and the output trace among them. -/

open Sys2Proof Sys2Proof.Machine

/-! ## Encoding -/

/-- Decode and encode agree (R81-R91): every well-formed instruction, with every operand at every value, is what the
decoder reads from its own event. -/
def Obligations.DecodeOfEncodeIsTheInstruction : Prop :=
  ∀ i : Instr, i.wf = true → decodeEvent (eventOf i) = some i

/-- What the decoder gives is well-formed, and its encoding decodes to it again and agrees with the command in all that
carries it: the header in every bit the opcode uses, with 0 in the others, the payload words before a text, and, for the
two text configures, the N = H[31:24] text bytes. Only reserved bits and unused text bytes are lost (R86, R88, R89). -/
def Obligations.DecodedInstructionsEncodeAgain : Prop :=
  ∀ (ws : List Word) (i : Instr), decode ws = .ok i →
    i.wf = true ∧ decode (encode i) = .ok i ∧
    ∃ h p h' p' op, ws = h :: p ∧ encode i = h' :: p' ∧ Op.ofCode (h.extractLsb' 0 8) = some op ∧
      h' = h &&& usedHeaderBits op ∧ p'.length = p.length ∧
      (∀ k, k < op.fixedPayload → p'[k]? = p[k]?) ∧
      (op.hasText = true → ∀ j, j < (h.extractLsb' 24 8).toNat →
        (p'.getD (2 + j / 4) 0).extractLsb' (8 * (j % 4)) 8 = (p.getD (2 + j / 4) 0).extractLsb' (8 * (j % 4)) 8)

/-- R88, R93: a command is an instruction exactly if OP is listed in R91 and the list has the length R88 gives; the rows
are R91's OP and word columns, the third entry saying that ⌈N/4⌉ text words follow. Every other command is ignored. -/
def Obligations.OnlyListedOpcodesOfTheRightLengthDecode : Prop :=
  let rows : List (Byte × Nat × Bool) :=
    [(0x01, 1, false), (0x02, 1, false), (0x03, 3, false)] ++
    [(0x10, 6, false), (0x11, 1, false), (0x12, 1, false), (0x13, 1, false), (0x14, 1, false), (0x15, 2, false),
     (0x16, 2, false), (0x17, 1, false), (0x18, 2, false), (0x19, 1, false), (0x1A, 1, false), (0x1B, 1, false)] ++
    [(0x20, 3, true), (0x21, 1, false), (0x22, 1, false), (0x23, 1, false), (0x24, 1, false)] ++
    [(0x30, 3, true), (0x31, 1, false), (0x32, 1, false), (0x33, 1, false), (0x34, 1, false)]
  let listed := fun ws : List Word =>
    ∃ h p, ws = h :: p ∧ ∃ row ∈ rows, row.1 = h.extractLsb' 0 8 ∧
      ws.length = row.2.1 + if row.2.2 then ((h.extractLsb' 24 8).toNat + 3) / 4 else 0
  ∀ ws : List Word,
    (listed ws → ∃ i, decode ws = .ok i) ∧
    (¬ listed ws → (∃ r, decode ws = .error r) ∧ ∀ s : State, deliver (.cmd ws) s = .next s)

/-- R86: two headers that agree in the bits the opcode uses decode alike, whatever their reserved bits hold. -/
def Obligations.ReservedHeaderBitsHaveNoEffect : Prop :=
  ∀ (op : Op) (h h' : Word) (payload : List Word), Op.ofCode (h.extractLsb' 0 8) = some op →
    h &&& usedHeaderBits op = h' &&& usedHeaderBits op →
    decode (h :: payload) = decode (h' :: payload)

/-- R89: a decoded text has N = H[31:24] characters, character i at bits [8(i mod 4)+7 : 8(i mod 4)] of command word
3 + i div 4, for both text configures; no other byte of the text words is read. -/
def Obligations.TextCharactersComeFromTheirBytes : Prop :=
  ∀ (h aper rper : Word) (ws : List Word) (text : List Byte),
    ((∃ rs asc cont pad, decode (h :: aper :: rper :: ws) = .ok (.carConfig rs asc cont pad aper rper text)) ∨
     (∃ rs asc cont pad coll, decode (h :: aper :: rper :: ws) = .ok (.sldConfig rs asc cont pad coll aper rper text))) →
    text.length = (h.extractLsb' 24 8).toNat ∧
    ∀ i, i < text.length →
      text[i]? = some (((h :: aper :: rper :: ws).getD (3 + i / 4) 0).extractLsb' (8 * (i % 4)) 8)

/-- R98: the worked encodings decode to the instructions they stand for. -/
def Obligations.WorkedEncodingsDecode : Prop :=
  decode [0x0F000001] = .ok (.setupDisplay 0b1111 false) ∧
  decode [0x00010002] = .ok (.setDp true) ∧
  decode [0x01000017] = .ok (.cntSetDir 0x01) ∧
  decode [0x00010810, 0x0000270E, 0x00000001, 0x00002711, 0x000001F4, 0x000003E8] =
    .ok (.cntConfig 0 1 true 0x00 9998 1 10001 500 1000) ∧
  decode [0x04010820, 0x000000FA, 0x000003E8, 0x34333231] =
    .ok (.carConfig 0 1 true false 250 1000 [0x31, 0x32, 0x33, 0x34])

/-- R97: what each pseudo-command expands to: SHOW pads at most four characters on the right with 0x20 and takes no
longer text; a SET_PAUSE is the pause command for v ≠ 0 and the resume command for v = 0. -/
def Obligations.PseudoCommandsExpand : Prop :=
  (∀ (chars : List Byte) (rs : SourceCode) (rper : Word),
    (chars.length ≤ 4 → ∃ w : Window, w.toList = chars ++ List.replicate (4 - chars.length) 0x20 ∧
      expandPseudo (.showText chars rs rper) = some (.showStatic rs w rper)) ∧
    (4 < chars.length → expandPseudo (.showText chars rs rper) = none)) ∧
  ∀ v : Nat,
    expandPseudo (.cntSetPause v) = some (if v = 0 then .cntResume else .cntPause) ∧
    expandPseudo (.carSetPause v) = some (if v = 0 then .carResume else .carPause) ∧
    expandPseudo (.sldSetPause v) = some (if v = 0 then .sldResume else .sldPause)

/-- R14, R92, R94, R307, R320: what one step does with the next pending event: a command that decodes runs its
instruction, one that does not is ignored, a tick runs TICK, a reset resets; with nothing pending nothing changes. THE MODEL'S CHOICES: the
event leaves the inbox first (log entry 1); a step with nothing pending is one that changes nothing (log entry 9); a reset
keeps the events still to come and the records emitted (log entry 10) and raises the count of resets (log entry 3). -/
def Obligations.StepRunsTheDecodedInstruction : Prop :=
  ∀ (s : State),
    (s.inbox = [] → step s = .next s) ∧
    ∀ (e : Event) (rest : List Event), s.inbox = e :: rest →
      (∀ ws i, e = .cmd ws → decode ws = .ok i → step s = exec i { s with inbox := rest }) ∧
      (∀ ws r, e = .cmd ws → decode ws = .error r → step s = .next { s with inbox := rest }) ∧
      (∀ code, e = .tick code → step s = exec (.tick code) { s with inbox := rest }) ∧
      (e = .reset →
        step s = .next { State.reset with inbox := rest, trace := s.trace, epoch := s.epoch + 1 })

/-- The opcode-table words reach the machine: the step after withFetchWord runs the instruction decodeTableWord reads
(log entries 1 and 7). -/
def Obligations.FetchWordRunsItsInstruction : Prop :=
  ∀ (s : State) (nbits w : Nat) (i : Instr), decodeTableWord nbits w = some i →
    step (s.withFetchWord nbits w) = exec i s

/-! ## Glyph encoder -/

/-- R120, R121, for any table: a code ≥ 0x80 is blank, every other code is looked up after only 0x61..0x7A are moved down
by 0x20; with a legal table an unsupported code, 0x00 among them, is blank (R123). -/
def Obligations.GlyphsAreLookedUpNormalized : Prop :=
  ∀ (P : Config.Params) (c : Byte),
    (0x80 ≤ c.toNat → encodeGlyph P c = 0) ∧
    (c.toNat < 0x80 → encodeGlyph P c =
      P.glyphTable (BitVec.ofNat 7 (if 0x61 ≤ c.toNat ∧ c.toNat ≤ 0x7A then c.toNat - 0x20 else c.toNat))) ∧
    (P.Legal → Config.supported ((normChar c).setWidth 7) = false → encodeGlyph P c = 0)

/-- R127, for any table: encode(c) = encode(upper(c)) for all 256 codes. -/
def Obligations.GlyphsAreCaseInsensitive : Prop :=
  ∀ (P : Config.Params) (c : Byte), encodeGlyph P (normChar c) = encodeGlyph P c

/-- R124 of the table this instance takes, and R125's masks character by character. The masks are the spec's default
from general knowledge, chosen by the instance (log entry 4). -/
def Obligations.DefaultGlyphTableIsLegal : Prop :=
  blockParams.Legal ∧
  ("0123456789".toList.map fun ch => encodeGlyph blockParams (BitVec.ofNat 8 ch.toNat)) =
    [0x3F, 0x06, 0x5B, 0x4F, 0x66, 0x6D, 0x7D, 0x07, 0x7F, 0x6F] ∧
  ("ABCDEFGHIJKLM".toList.map fun ch => encodeGlyph blockParams (BitVec.ofNat 8 ch.toNat)) =
    [0x77, 0x7C, 0x39, 0x5E, 0x79, 0x71, 0x3D, 0x76, 0x30, 0x1E, 0x75, 0x38, 0x37] ∧
  ("NOPQRSTUVWXYZ".toList.map fun ch => encodeGlyph blockParams (BitVec.ofNat 8 ch.toNat)) =
    [0x54, 0x3F, 0x73, 0x67, 0x50, 0x6D, 0x78, 0x3E, 0x1C, 0x2A, 0x76, 0x6E, 0x5B] ∧
  ("-=_ ".toList.map fun ch => encodeGlyph blockParams (BitVec.ofNat 8 ch.toNat)) = [0x40, 0x48, 0x08, 0x00]

/-! ## Display -/

/-- R140, R148: a tick of the refresh source advances the index, lights exactly the segments of the new position's glyph
and the decimal point of DP, enables exactly the new position if it is bound, and writes nothing else. -/
def Obligations.RefreshShowsTheNextDigit : Prop :=
  ∀ (s : State) (code : SourceCode) (src : Source), code.toNat = src.val → s.binding.rsrc = some src →
    ∃ pins, let i : Position := s.display.digIdx + 1
      let t := { s with display := { s.display with digIdx := i, pins := pins } }
      exec (.tick code) s = .next t ∧
      i.val = (s.display.digIdx.val + 1) % 4 ∧
      (∀ j, j < 7 → segmentLit blockParams t.display j = (encodeGlyph blockParams s.display.dbuf[i]).getLsbD j) ∧
      pointLit blockParams t.display = s.display.dp ∧
      ∀ k : Position, digitEnabled blockParams t.display k = true ↔ k = i ∧ s.display.bound.getLsbD i.val = true

/-- R142 for any parameters: after a REFRESH the logical outputs are those of the new position, whatever glyph table and
polarity functions the block has. -/
def Obligations.RefreshOutputsHoldForEveryParameter : Prop :=
  ∀ (P : Config.Params) (s : State), let t := refreshWith P s
    (∀ j, j < 7 → segmentLit P t.display j = (encodeGlyph P s.display.dbuf[t.display.digIdx]).getLsbD j) ∧
    (pointLit P t.display = s.display.dp) ∧
    ∀ k : Position, digitEnabled P t.display k = true ↔
      k = t.display.digIdx ∧ s.display.bound.getLsbD t.display.digIdx.val = true

/-- R144 under R9's default polarity (the instance's choice, log entry 5): POL = 0 drives segments and decimal point
active-high and digits active-low, POL = 1 the reverse. -/
def Obligations.PinLevelsFollowThePolarity : Prop :=
  ∀ (seg : BitVec 7) (dp : Bool) (dig : BitVec 4),
    driveLevels blockParams false seg dp dig = { seg := seg, dp := dp, dig := ~~~dig } ∧
    driveLevels blockParams true seg dp dig = { seg := ~~~seg, dp := !dp, dig := dig }

/-- R150: SETUP_DISPLAY, from its word: BOUND and POL are set and every pin is de-asserted under the new POL; nothing
else changes. -/
def Obligations.SetupDisplayDeassertsEverything : Prop :=
  (∀ h : Word, h.extractLsb' 0 8 = 0x01 → decode [h] = .ok (.setupDisplay (h.extractLsb' 24 4) (h.getLsbD 16))) ∧
  ∀ (bound : BitVec 4) (pol : Bool) (s : State),
    ∃ pins, let t := { s with display := { s.display with bound := bound, pol := pol, pins := pins } }
      exec (.setupDisplay bound pol) s = .next t ∧
      (∀ j, j < 7 → segmentLit blockParams t.display j = false) ∧
      pointLit blockParams t.display = false ∧
      ∀ k, digitEnabled blockParams t.display k = false

/-- R151: SET_DP, from its word: DP only; no pin changes. -/
def Obligations.SetDpWritesOnlyDp : Prop :=
  (∀ h : Word, h.extractLsb' 0 8 = 0x02 → decode [h] = .ok (.setDp (h.getLsbD 16))) ∧
  ∀ (dp : Bool) (s : State), exec (.setDp dp) s = .next { s with display := { s.display with dp := dp } }

/-- R152, with R272: SHOW_STATIC, from its words: the four characters, ACTIVE and the refresh binding are written and no
animation source is left; the old sources are disarmed and the new one armed. A code above 4 makes it ignored. -/
def Obligations.ShowStaticWritesTheFourCharacters : Prop :=
  (∀ h chars rper : Word, h.extractLsb' 0 8 = 0x03 →
    decode [h, chars, rper] = .ok (.showStatic (h.extractLsb' 8 3)
      #v[chars.extractLsb' 0 8, chars.extractLsb' 8 8, chars.extractLsb' 16 8, chars.extractLsb' 24 8] rper)) ∧
  ∀ (rs : SourceCode) (chars : Window) (rper : Word) (s : State),
    (4 < rs.toNat → exec (.showStatic rs chars rper) s = .next s) ∧
    ∀ src : Source, rs.toNat = src.val →
      exec (.showStatic rs chars rper) s = .next { s with
        display := { s.display with dbuf := chars }
        binding := { active := .static, rsrc := some src, rper := rper, asrc := none, aper := 0 }
        trace := s.trace ++ s.binding.rsrc.toList.map .disarm ++ s.binding.asrc.toList.map .disarm ++ [.arm src rper] }

/-- R149: over any sequence of ticks, in which the refresh source fires n times, the lit index moves n places round the
cycle 0,1,2,3, and once it has fired only the lit position is enabled, and only if it is bound. -/
def Obligations.MultiplexerCyclesThroughThePositions : Prop :=
  ∀ (s : State) (src : Source) (codes : List SourceCode), s.binding.rsrc = some src →
    ∃ t, let n := codes.count (BitVec.ofNat 3 src.val)
      Sys2Proof.core.run codes.length (s.setInbox (codes.map .tick)) = .next t ∧
      t.display.digIdx.val = (s.display.digIdx.val + n) % 4 ∧
      (0 < n → ∀ k : Position, digitEnabled blockParams t.display k = true ↔
        k = t.display.digIdx ∧ s.display.bound.getLsbD k.val = true)

/-- R154: an event changes the display buffer only if it is a reset, an accepted SHOW_STATIC, CAR_CONFIG or SLD_CONFIG,
which leaves its own behavior active, or a tick of the animation source of an animated behavior, which leaves ACTIVE
alone. No control command and no refresh writes it. -/
def Obligations.DisplayBufferHasOneOwner : Prop :=
  ∀ (e : Event) (s t : State), deliver e s = .next t → t.display.dbuf ≠ s.display.dbuf →
    e = .reset ∨
    (∃ ws rs chars rper, e = .cmd ws ∧ decode ws = .ok (.showStatic rs chars rper) ∧ t.binding.active = .static) ∨
    (∃ ws rs asc cont pad aper rper text, e = .cmd ws ∧
      decode ws = .ok (.carConfig rs asc cont pad aper rper text) ∧ t.binding.active = .carousel) ∨
    (∃ ws rs asc cont pad coll aper rper text, e = .cmd ws ∧
      decode ws = .ok (.sldConfig rs asc cont pad coll aper rper text) ∧ t.binding.active = .slider) ∨
    (∃ code src, e = .tick code ∧ code.toNat = src.val ∧ s.binding.rsrc ≠ some src ∧ s.binding.asrc = some src ∧
      s.binding.active.animated = true ∧ t.binding = s.binding)

/-- R26, R141: no command changes DIGIDX, and a tick changes it only if it is the refresh source's, by one place. -/
def Obligations.OnlyRefreshMovesTheDigitIndex : Prop :=
  (∀ (ws : List Word) (s : State), ∃ t, deliver (.cmd ws) s = .next t ∧ t.display.digIdx = s.display.digIdx) ∧
  ∀ (code : SourceCode) (s : State), ∃ t, deliver (.tick code) s = .next t ∧
    ((∃ src, code.toNat = src.val ∧ s.binding.rsrc = some src ∧
        t.display.digIdx.val = (s.display.digIdx.val + 1) % 4) ∨
     ((∀ src : Source, code.toNat = src.val → s.binding.rsrc ≠ some src) ∧
        t.display.digIdx = s.display.digIdx))

/-! ## Bounded counter -/

/-- R172: one correction by 10000 over the integers; neither branch leaves the 32-bit range. -/
def Obligations.FoldCorrectsOnce : Prop :=
  ∀ v : Word, (fold v).toInt =
    if 9999 < v.toInt then v.toInt - 10000 else if v.toInt < 0 then v.toInt + 10000 else v.toInt

/-- R173: the projection is the four decimal digits of s32(v) mod 10000 as ASCII, thousands first. -/
def Obligations.ProjectionIsFourDecimalDigits : Prop :=
  ∀ v : Word, ∃ d3 d2 d1 d0 : Nat, d3 < 10 ∧ d2 < 10 ∧ d1 < 10 ∧ d0 < 10 ∧
    v.toInt % 10000 = 1000 * d3 + 100 * d2 + 10 * d1 + d0 ∧
    (proj v).toList = [BitVec.ofNat 8 (0x30 + d3), BitVec.ofNat 8 (0x30 + d2), BitVec.ofNat 8 (0x30 + d1),
      BitVec.ofNat 8 (0x30 + d0)]

/-- R170, with R272: CNT_CONFIG, from its words. Accepted, it initialises the counter slot without folding START, makes
the counter active and binds; the display is not written. A bad source code, an unrecognized direction or equal sources
make it ignored. -/
def Obligations.CounterConfigInitialisesTheSlot : Prop :=
  (∀ h start inc stop aper rper : Word, h.extractLsb' 0 8 = 0x10 →
    decode [h, start, inc, stop, aper, rper] = .ok (.cntConfig (h.extractLsb' 8 3) (h.extractLsb' 11 3)
      (h.getLsbD 16) (h.extractLsb' 24 8) start inc stop aper rper)) ∧
  ∀ (rs asc : SourceCode) (stopEn : Bool) (dir : Byte) (start inc stop aper rper : Word) (s : State),
    (4 < rs.toNat ∨ 4 < asc.toNat ∨ (dir ≠ 0x00 ∧ dir ≠ 0x01) ∨ asc = rs →
      exec (.cntConfig rs asc stopEn dir start inc stop aper rper) s = .next s) ∧
    ∀ (r a : Source) (d : Direction), rs.toNat = r.val → asc.toNat = a.val → a ≠ r →
      (dir = 0x00 ∧ d = .increase ∨ dir = 0x01 ∧ d = .decrease) →
      exec (.cntConfig rs asc stopEn dir start inc stop aper rper) s = .next { s with
        counter := { start := start, cur := start, norm := start, inc := inc, dir := d, stop := stop,
                     stopEn := stopEn, pause := false }
        binding := { active := .counter, rsrc := some r, rper := rper, asrc := some a, aper := aper }
        trace := s.trace ++ s.binding.rsrc.toList.map .disarm ++ s.binding.asrc.toList.map .disarm ++
          [.arm r rper, .arm a aper] }

/-- R171: a tick of the counting source. Not paused, both values step in the configured direction modulo 2^32, the
normalized one is folded, and the pause is set exactly if the stop is enabled and the raw value is at it; paused, the
slot stays. Either way the display buffer is the projection of the normalized value, and nothing else changes. -/
def Obligations.CountingTickStepsAndProjects : Prop :=
  ∀ (s : State) (code : SourceCode) (src : Source), code.toNat = src.val → s.binding.rsrc ≠ some src →
    s.binding.asrc = some src → s.binding.active = .counter →
    let c := s.counter
    let cur := if c.dir = .increase then c.cur + c.inc else c.cur - c.inc
    let norm := if c.dir = .increase then c.norm + c.inc else c.norm - c.inc
    let c' : Counter :=
      if c.pause then c else { c with cur := cur, norm := fold norm, pause := c.stopEn && decide (cur = c.stop) }
    exec (.tick code) s = .next { s with counter := c', display := { s.display with dbuf := proj c'.norm } }

/-- R174, R175, R176: CNT_PAUSE, CNT_RESUME and CNT_TOGGLE, from their words, write C_PAUSE and nothing else, whatever
behavior is active. -/
def Obligations.CounterPauseControls : Prop :=
  (∀ h : Word, (h.extractLsb' 0 8 = 0x11 → decode [h] = .ok .cntPause) ∧
    (h.extractLsb' 0 8 = 0x12 → decode [h] = .ok .cntResume) ∧
    (h.extractLsb' 0 8 = 0x13 → decode [h] = .ok .cntToggle)) ∧
  ∀ s : State,
    exec .cntPause s = .next { s with counter := { s.counter with pause := true } } ∧
    exec .cntResume s = .next { s with counter := { s.counter with pause := false } } ∧
    exec .cntToggle s = .next { s with counter := { s.counter with pause := !s.counter.pause } }

/-- R177, R178: CNT_RESET and CNT_SET_COUNT, from their words: both values go to the start value, unfolded, and the pause
is cleared; the display buffer is not written. -/
def Obligations.CounterResetAndSetCount : Prop :=
  (∀ h v : Word, (h.extractLsb' 0 8 = 0x14 → decode [h] = .ok .cntReset) ∧
    (h.extractLsb' 0 8 = 0x15 → decode [h, v] = .ok (.cntSetCount v))) ∧
  ∀ (s : State) (v : Word),
    exec .cntReset s = .next { s with
      counter := { s.counter with cur := s.counter.start, norm := s.counter.start, pause := false } } ∧
    exec (.cntSetCount v) s = .next { s with
      counter := { s.counter with start := v, cur := v, norm := v, pause := false } }

/-- R179, R180: CNT_SET_INC and CNT_SET_DIR, from their words; a direction code other than 0x00 and 0x01 is ignored. -/
def Obligations.CounterSetIncrementAndDirection : Prop :=
  (∀ h v : Word, (h.extractLsb' 0 8 = 0x16 → decode [h, v] = .ok (.cntSetInc v)) ∧
    (h.extractLsb' 0 8 = 0x17 → decode [h] = .ok (.cntSetDir (h.extractLsb' 24 8)))) ∧
  ∀ (s : State) (v : Word) (dc : Byte),
    exec (.cntSetInc v) s = .next { s with counter := { s.counter with inc := v } } ∧
    (dc = 0x00 → exec (.cntSetDir dc) s = .next { s with counter := { s.counter with dir := .increase } }) ∧
    (dc = 0x01 → exec (.cntSetDir dc) s = .next { s with counter := { s.counter with dir := .decrease } }) ∧
    (1 < dc.toNat → exec (.cntSetDir dc) s = .next s)

/-- R181, R182: CNT_SET_STOP and CNT_CLEAR_STOP, from their words: setting enables the stop and pauses exactly if V is the
raw count; clearing leaves the pause. -/
def Obligations.CounterStopValue : Prop :=
  (∀ h v : Word, (h.extractLsb' 0 8 = 0x18 → decode [h, v] = .ok (.cntSetStop v)) ∧
    (h.extractLsb' 0 8 = 0x19 → decode [h] = .ok .cntClearStop)) ∧
  ∀ (s : State) (v : Word),
    exec (.cntSetStop v) s = .next { s with
      counter := { s.counter with stop := v, stopEn := true, pause := if v = s.counter.cur then true else false } } ∧
    exec .cntClearStop s = .next { s with counter := { s.counter with stopEn := false } }

/-- R183, R184: the accessors, from their words, emit one resp record and change no state element. -/
def Obligations.CounterReadsEmitOneResponse : Prop :=
  (∀ h : Word, (h.extractLsb' 0 8 = 0x1A → decode [h] = .ok .cntReadNorm) ∧
    (h.extractLsb' 0 8 = 0x1B → decode [h] = .ok .cntReadRaw)) ∧
  ∀ s : State,
    exec .cntReadNorm s = .next { s with trace := s.trace ++ [.resp s.counter.norm] } ∧
    exec .cntReadRaw s = .next { s with trace := s.trace ++ [.resp s.counter.cur] }

/-- R186: with C_INC in [0, 10000] a counting tick keeps C_NORM in [0, 9999]; if moreover C_CUR - C_NORM is a multiple of
10000 and the step does not wrap C_CUR, it stays one, and the display shows C_CUR mod 10000 (R330). -/
def Obligations.SmallIncrementsKeepTheCountInRange : Prop :=
  ∀ c : Counter, 0 ≤ c.norm.toInt → c.norm.toInt ≤ 9999 → c.inc.toNat ≤ 10000 →
    let t := counterTick c
    (0 ≤ t.norm.toInt ∧ t.norm.toInt ≤ 9999) ∧
    let step : Int := if c.dir = .increase then c.inc.toNat else - (c.inc.toNat : Int)
    ((c.cur.toInt - c.norm.toInt) % 10000 = 0 → -2 ^ 31 ≤ c.cur.toInt + step → c.cur.toInt + step ≤ 2 ^ 31 - 1 →
      (t.cur.toInt - t.norm.toInt) % 10000 = 0 ∧ proj t.norm = proj t.cur)

/-- R187: the single-step fold keeps an under-normalized value: 9000 plus 15000 gives 14000, shown as "4000". -/
def Obligations.LargeIncrementsStayUnderNormalized : Prop :=
  ∀ c : Counter, c.pause = false → c.dir = .increase → c.norm = 9000 → c.inc = 15000 →
    (counterTick c).norm = 14000 ∧ (proj (counterTick c).norm).toList = [0x34, 0x30, 0x30, 0x30]

/-- R185: counting wraps modulo 2^32, so decreasing by C_INC is increasing by 2^32 - C_INC. -/
def Obligations.DecreasingIsIncreasingByTheComplement : Prop :=
  ∀ c : Counter, c.dir = .decrease →
    let u := counterTick { c with dir := .increase, inc := BitVec.ofNat 32 (2 ^ 32 - c.inc.toNat) }
    (counterTick c).cur = u.cur ∧ (counterTick c).norm = u.norm ∧ (counterTick c).pause = u.pause

/-- R188: once C_PAUSE is 1 every tick leaves the counter slot as it is, and of all events only a reset, CNT_RESUME,
CNT_TOGGLE, CNT_RESET, CNT_SET_COUNT, CNT_SET_STOP with another value than C_CUR, or an accepted CNT_CONFIG clears it. -/
def Obligations.PausedCounterStaysUntilResumed : Prop :=
  ∀ (s : State), s.counter.pause = true →
    (∀ code, ∃ t, deliver (.tick code) s = .next t ∧ t.counter = s.counter) ∧
    ∀ (e : Event) (t : State), deliver e s = .next t → t.counter.pause = false →
      e = .reset ∨ ∃ ws, e = .cmd ws ∧
        (decode ws = .ok .cntResume ∨ decode ws = .ok .cntToggle ∨ decode ws = .ok .cntReset ∨
         (∃ v, decode ws = .ok (.cntSetCount v)) ∨
         (∃ v, decode ws = .ok (.cntSetStop v) ∧ v ≠ s.counter.cur) ∨
         (∃ rs asc stopEn dir start inc stop aper rper,
           decode ws = .ok (.cntConfig rs asc stopEn dir start inc stop aper rper) ∧ t.binding.active = .counter))

/-! ## Carousel -/

/-- R210, R211, with R272: CAR_CONFIG, from its words. Accepted, K_BUF takes the working buffer W from entry 0 and keeps its
entries past it, K_LEN is N + 4 padded or N + 1, the index is -1, the flags are cleared, the display shows
W[k mod L], the carousel is active and bound, and nothing else changes. A bad source code, N > 248 or equal sources make
it ignored. That the entries past W keep what they held is the model's choice (log entry 11): the spec lets them hold any
value. -/
def Obligations.CarouselConfigPrimesTheWindow : Prop :=
  (∀ (h aper rper : Word) (ws : List Word), h.extractLsb' 0 8 = 0x20 →
    ws.length = ((h.extractLsb' 24 8).toNat + 3) / 4 →
    ∃ text : List Byte, text.length = (h.extractLsb' 24 8).toNat ∧
      decode (h :: aper :: rper :: ws) = .ok (.carConfig (h.extractLsb' 8 3) (h.extractLsb' 11 3) (h.getLsbD 16)
        (h.getLsbD 17) aper rper text)) ∧
  ∀ (rs asc : SourceCode) (cont pad : Bool) (aper rper : Word) (text : List Byte) (s : State),
    (4 < rs.toNat ∨ 4 < asc.toNat ∨ 248 < text.length ∨ asc = rs →
      exec (.carConfig rs asc cont pad aper rper text) s = .next s) ∧
    ∀ (r a : Source), rs.toNat = r.val → asc.toNat = a.val → a ≠ r → text.length ≤ 248 →
      let b4 : List Byte := [0x20, 0x20, 0x20, 0x20]
      let w := if pad then b4 ++ text ++ (if cont then [] else b4) else text ++ [0x20]
      let len := if pad then text.length + 4 else text.length + 1
      ∃ buf dbuf,
        exec (.carConfig rs asc cont pad aper rper text) s = .next { s with
          carousel := { buf := buf, len := BitVec.ofNat 16 len, idx := -1, cont := cont, pause := false, ovf := false }
          display := { s.display with dbuf := dbuf }
          binding := { active := .carousel, rsrc := some r, rper := rper, asrc := some a, aper := aper }
          trace := s.trace ++ s.binding.rsrc.toList.map .disarm ++ s.binding.asrc.toList.map .disarm ++
            [.arm r rper, .arm a aper] } ∧
        (∀ j, Memory.read? buf j = if j < w.length then w[j]? else Memory.read? s.carousel.buf j) ∧
        (∀ k : Fin 4, some dbuf[k] = w[k.val % len]?)

/-- R212: a tick of the transition source with the carousel active. The index advances unless it is at the terminal index
or paused; the window shown is read at the advanced index, K_BUF taken modulo K_LEN; then a continuous carousel whose
index reached K_LEN goes back to -1, and a one-shot one at max(K_LEN - 4, 0) sets K_OVF. Nothing else changes; with
K_LEN = 0 nothing does. That the index wraps at the limit of its 16 bits, in states no run reaches, is the model's choice
(log entry 8, DEDUCED). -/
def Obligations.CarouselTickScrolls : Prop :=
  ∀ (s : State) (code : SourceCode) (src : Source), code.toNat = src.val → s.binding.rsrc ≠ some src →
    s.binding.asrc = some src → s.binding.active = .carousel →
    let c := s.carousel
    (c.len = 0 → exec (.tick code) s = .next s) ∧
    (c.len ≠ 0 →
      let i : BitVec 16 := if c.ovf = false ∧ c.pause = false then c.idx + 1 else c.idx
      ∃ dbuf : Window,
        exec (.tick code) s = .next { s with
          carousel := { c with
            idx := if c.cont = true ∧ (c.len.toNat : Int) ≤ i.toInt then -1 else i
            ovf := if c.cont = false ∧ max ((c.len.toNat : Int) - 4) 0 ≤ i.toInt then true else c.ovf }
          display := { s.display with dbuf := dbuf } } ∧
        ∀ k : Fin 4, dbuf[k] = Memory.entry .kBuf s.epoch c.buf ((i.toInt + k.val) % c.len.toNat).toNat)

/-- R214, R215, R216, R217: the carousel controls, from their words; none writes the display buffer, and CAR_RESUME does
not clear K_OVF. -/
def Obligations.CarouselControls : Prop :=
  (∀ h : Word, (h.extractLsb' 0 8 = 0x21 → decode [h] = .ok .carPause) ∧
    (h.extractLsb' 0 8 = 0x22 → decode [h] = .ok .carResume) ∧
    (h.extractLsb' 0 8 = 0x23 → decode [h] = .ok .carToggle) ∧
    (h.extractLsb' 0 8 = 0x24 → decode [h] = .ok .carRestart)) ∧
  ∀ s : State,
    exec .carPause s = .next { s with carousel := { s.carousel with pause := true } } ∧
    exec .carResume s = .next { s with carousel := { s.carousel with pause := false } } ∧
    exec .carToggle s = .next { s with carousel := { s.carousel with pause := !s.carousel.pause } } ∧
    exec .carRestart s = .next { s with carousel := { s.carousel with ovf := false, idx := -1, pause := false } }

/-- R218, continuous: from an accepted configure, after any sequence of ticks in which the transition source fires t ≥ 1
times, the window is W[(i + k) mod L] at i = (t - 1) mod (L + 1). -/
def Obligations.ContinuousCarouselWindows : Prop :=
  ∀ (rs asc : SourceCode) (pad : Bool) (aper rper : Word) (text : List Byte) (s : State) (codes : List SourceCode),
    rs.toNat < 5 → asc.toNat < 5 → rs ≠ asc → text.length ≤ 248 →
    let w := (carBuild text true pad).1
    let len := if pad then text.length + 4 else text.length + 1
    let n := codes.count asc
    0 < n →
    ∃ s₀ t, exec (.carConfig rs asc true pad aper rper text) s = .next s₀ ∧
      Sys2Proof.core.run codes.length (s₀.setInbox (codes.map .tick)) = .next t ∧
      ∀ k : Fin 4, some t.display.dbuf[k] = w[((n - 1) % (len + 1) + k.val) % len]?

/-- R218, one-shot: after t ≥ 1 firings the window is W[(i + k) mod L] at i = min(t - 1, max(L - 4, 0)), and K_OVF is 1
exactly from tick max(L - 4, 0) + 1 on. -/
def Obligations.OneShotCarouselWindows : Prop :=
  ∀ (rs asc : SourceCode) (pad : Bool) (aper rper : Word) (text : List Byte) (s : State) (codes : List SourceCode),
    rs.toNat < 5 → asc.toNat < 5 → rs ≠ asc → text.length ≤ 248 →
    let w := (carBuild text false pad).1
    let len := if pad then text.length + 4 else text.length + 1
    let n := codes.count asc
    0 < n →
    ∃ s₀ t, exec (.carConfig rs asc false pad aper rper text) s = .next s₀ ∧
      Sys2Proof.core.run codes.length (s₀.setInbox (codes.map .tick)) = .next t ∧
      (∀ k : Fin 4, some t.display.dbuf[k] = w[(min (n - 1) (len - 4) + k.val) % len]?) ∧
      t.carousel.ovf = decide (len - 4 + 1 ≤ n)

/-! ## Slider -/

/-- R240, R249: the collapse keeps exactly the characters at the indices where R240's condition is false, in order: a
space is dropped if neither neighbour in the original text is a space, a boundary counting as none. So every non-space
stays, a text in which no space is isolated is unchanged, and a collapsed text has no isolated space left. Last the spec's
example: "A B C D  E F  G" collapses to "ABCD  EF  G", and its unpadded sequence has 12 characters. -/
def Obligations.CollapseDropsOnlyIsolatedSpaces : Prop :=
  (∀ text : List Byte,
    collapse text = ((List.range text.length).filter fun i =>
      !decide (text[i]? = some 0x20 ∧ (i = 0 ∨ text[i - 1]? ≠ some 0x20) ∧
        (i + 1 = text.length ∨ text[i + 1]? ≠ some 0x20))).map (fun i => text.getD i 0) ∧
    (collapse text).filter (· != 0x20) = text.filter (· != 0x20) ∧
    (collapse text).Sublist text ∧
    ((∀ i, i < text.length → isolatedSpace text i = false) → collapse text = text) ∧
    collapse (collapse text) = collapse text) ∧
  let codes := fun str : String => str.toList.map fun ch => BitVec.ofNat 8 ch.toNat
  collapse (codes "A B C D  E F  G") = codes "ABCD  EF  G" ∧
    sldBuild (codes "A B C D  E F  G") false true = codes "ABCD  EF  G "

/-- R242, with R241 and R272: SLD_CONFIG, from its words. Accepted, S_BUF takes the working buffer W (lead pad, the text collapsed if asked,
blanks up to a multiple of 4) and keeps its entries past it, S_LEN is its length, the page is 0, the pause is cleared,
the display shows the first page (blank if W is empty), the slider is active and bound, and nothing else changes. A bad
source code, N > 248 or equal sources make it ignored. That the entries past W keep what they held is the model's choice
(log entry 11): the spec lets them hold any value. -/
def Obligations.SliderConfigPrimesTheFirstPage : Prop :=
  (∀ (h aper rper : Word) (ws : List Word), h.extractLsb' 0 8 = 0x30 →
    ws.length = ((h.extractLsb' 24 8).toNat + 3) / 4 →
    ∃ text : List Byte, text.length = (h.extractLsb' 24 8).toNat ∧
      decode (h :: aper :: rper :: ws) = .ok (.sldConfig (h.extractLsb' 8 3) (h.extractLsb' 11 3) (h.getLsbD 16)
        (h.getLsbD 17) (h.getLsbD 18) aper rper text)) ∧
  ∀ (rs asc : SourceCode) (cont pad coll : Bool) (aper rper : Word) (text : List Byte) (s : State),
    (4 < rs.toNat ∨ 4 < asc.toNat ∨ 248 < text.length ∨ asc = rs →
      exec (.sldConfig rs asc cont pad coll aper rper text) s = .next s) ∧
    ∀ (r a : Source), rs.toNat = r.val → asc.toNat = a.val → a ≠ r → text.length ≤ 248 →
      let b4 : List Byte := [0x20, 0x20, 0x20, 0x20]
      let body := if coll then collapse text else text
      ∃ buf dbuf w fill,
        w = (if pad then b4 else []) ++ body ++ List.replicate fill 0x20 ∧ fill < 4 ∧ w.length % 4 = 0 ∧
        w.length ≤ 252 ∧
        exec (.sldConfig rs asc cont pad coll aper rper text) s = .next { s with
          slider := { buf := buf, len := BitVec.ofNat 16 w.length, page := 0, cont := cont, pause := false }
          display := { s.display with dbuf := dbuf }
          binding := { active := .slider, rsrc := some r, rper := rper, asrc := some a, aper := aper }
          trace := s.trace ++ s.binding.rsrc.toList.map .disarm ++ s.binding.asrc.toList.map .disarm ++
            [.arm r rper, .arm a aper] } ∧
        (∀ j, Memory.read? buf j = if j < w.length then w[j]? else Memory.read? s.slider.buf j) ∧
        (∀ k : Fin 4, dbuf[k] = w.getD k.val 0x20)

/-- R243: a tick of the transition source with the slider active. The page shown is read before the advance, 0x20 past
S_LEN; unless paused, the page advances by 4, and where that exceeds S_LEN - 4 it wraps to 0 if continuous and otherwise
stays with the pause set. Nothing else changes. -/
def Obligations.SliderTickPages : Prop :=
  ∀ (s : State) (code : SourceCode) (src : Source), code.toNat = src.val → s.binding.rsrc ≠ some src →
    s.binding.asrc = some src → s.binding.active = .slider →
    let l := s.slider
    ∃ dbuf : Window,
      exec (.tick code) s = .next { s with
        slider :=
          if l.pause = true then l
          else if (l.len.toNat : Int) - 4 < l.page.toNat + 4 then
            (if l.cont = true then { l with page := 0 } else { l with pause := true })
          else { l with page := l.page + 4 }
        display := { s.display with dbuf := dbuf } } ∧
      ∀ k : Fin 4, dbuf[k] =
        if l.page.toNat + k.val < l.len.toNat then Memory.entry .sBuf s.epoch l.buf (l.page.toNat + k.val) else 0x20

/-- R244, R245, R246, R247: the slider controls, from their words; none writes the display buffer. -/
def Obligations.SliderControls : Prop :=
  (∀ h : Word, (h.extractLsb' 0 8 = 0x31 → decode [h] = .ok .sldPause) ∧
    (h.extractLsb' 0 8 = 0x32 → decode [h] = .ok .sldResume) ∧
    (h.extractLsb' 0 8 = 0x33 → decode [h] = .ok .sldToggle) ∧
    (h.extractLsb' 0 8 = 0x34 → decode [h] = .ok .sldRestart)) ∧
  ∀ s : State,
    exec .sldPause s = .next { s with slider := { s.slider with pause := true } } ∧
    exec .sldResume s = .next { s with slider := { s.slider with pause := false } } ∧
    exec .sldToggle s = .next { s with slider := { s.slider with pause := !s.slider.pause } } ∧
    exec .sldRestart s = .next { s with slider := { s.slider with page := 0, pause := false } }

/-- R248: from an accepted configure, after any sequence of ticks in which the transition source fires t ≥ 1 times, the
window is the page 4((t - 1) mod P) continuous and 4 min(t - 1, P - 1) one-shot, P = L / 4 pages, and blank if there is no
page; a one-shot slider is paused exactly from tick max(P, 1) on, a continuous one never. -/
def Obligations.SliderPages : Prop :=
  ∀ (rs asc : SourceCode) (cont pad coll : Bool) (aper rper : Word) (text : List Byte) (s : State)
    (codes : List SourceCode),
    rs.toNat < 5 → asc.toNat < 5 → rs ≠ asc → text.length ≤ 248 →
    let w := sldBuild text pad coll
    let pages := w.length / 4
    let n := codes.count asc
    0 < n →
    ∃ s₀ t, exec (.sldConfig rs asc cont pad coll aper rper text) s = .next s₀ ∧
      Sys2Proof.core.run codes.length (s₀.setInbox (codes.map .tick)) = .next t ∧
      (∀ k : Fin 4, t.display.dbuf[k] =
        w.getD (4 * (if cont then (n - 1) % pages else min (n - 1) (pages - 1)) + k.val) 0x20) ∧
      t.slider.pause = (!cont && decide (max pages 1 ≤ n))

/-- R250: at the last page of a one-shot slider that is paused, ticks change neither the slot nor, once it shows that
page, the display; after SLD_RESUME the next tick shows the same page and pauses again; SLD_RESTART goes to page 0. -/
def Obligations.OneShotSliderEndsOnItsLastPage : Prop :=
  ∀ (s : State) (code : SourceCode) (src : Source), code.toNat = src.val → s.binding.rsrc ≠ some src →
    s.binding.asrc = some src → s.binding.active = .slider → s.slider.cont = false → s.slider.pause = true →
    s.slider.page.toNat + 4 = s.slider.len.toNat →
    let page := sldPage s.epoch s.slider s.slider.page.toNat
    let shown := { s with display := { s.display with dbuf := page } }
    exec (.tick code) s = .next shown ∧
    (∃ r, exec .sldResume s = .next r ∧ r.slider.pause = false ∧ exec (.tick code) r = .next shown) ∧
    ∃ r, exec .sldRestart s = .next r ∧ r.slider.page = 0 ∧ r.slider.pause = false

/-! ## Scheduler -/

/-- R273, R274: a counter, carousel or slider configure whose two source codes are equal, or one of whose codes is above 4,
changes nothing and emits nothing; nor does a SHOW_STATIC whose code is above 4. -/
def Obligations.ConflictingSourcesAreIgnored : Prop :=
  ∀ (rs asc : SourceCode) (s : State), asc = rs ∨ 4 < rs.toNat ∨ 4 < asc.toNat →
    (∀ stopEn dir start inc stop aper rper,
      exec (.cntConfig rs asc stopEn dir start inc stop aper rper) s = .next s) ∧
    (∀ cont pad aper rper text, exec (.carConfig rs asc cont pad aper rper text) s = .next s) ∧
    (∀ cont pad coll aper rper text, exec (.sldConfig rs asc cont pad coll aper rper text) s = .next s) ∧
    (4 < rs.toNat → ∀ chars rper, exec (.showStatic rs chars rper) s = .next s)

/-- R276: a tick whose code names no source, or a source bound to no role now, changes nothing. So does a tick of a bound
animation source while no animated behavior is active, which no run reaches: the model's choice, read from R275's dispatch
and R153 (log entry 13, DEDUCED). -/
def Obligations.UnboundTicksAreIgnored : Prop :=
  ∀ (code : SourceCode) (s : State),
    (4 < code.toNat → exec (.tick code) s = .next s) ∧
    ∀ src : Source, code.toNat = src.val → s.binding.rsrc ≠ some src →
      s.binding.asrc ≠ some src ∨ s.binding.active.animated = false → exec (.tick code) s = .next s

/-- R277, R21: whatever an event does, it changes at most one of the three slots, unless it is a reset; a configure that
makes a behavior active leaves the slots of the others. -/
def Obligations.OtherSlotsSurviveABehaviorSwitch : Prop :=
  ∀ (e : Event) (s t : State), deliver e s = .next t → e ≠ .reset →
    (t.carousel = s.carousel ∧ t.slider = s.slider ∨ t.counter = s.counter ∧ t.slider = s.slider ∨
      t.counter = s.counter ∧ t.carousel = s.carousel) ∧
    (t.binding.active ≠ s.binding.active →
      (t.binding.active ≠ .counter → t.counter = s.counter) ∧
      (t.binding.active ≠ .carousel → t.carousel = s.carousel) ∧
      (t.binding.active ≠ .slider → t.slider = s.slider))

/-- R271, R272, R296, R308: what an event appends to the output trace: nothing, one resp record for a read, or the records
of Bind for one of the four configures, accepted, in that order and with its own behavior active; a record is never
withdrawn. -/
def Obligations.OnlyReadsAndConfiguresEmit : Prop :=
  ∀ (e : Event) (s t : State), deliver e s = .next t →
    t.trace = s.trace ∨
    (∃ ws, e = .cmd ws ∧ decode ws = .ok .cntReadNorm ∧ t.trace = s.trace ++ [.resp s.counter.norm]) ∨
    (∃ ws, e = .cmd ws ∧ decode ws = .ok .cntReadRaw ∧ t.trace = s.trace ++ [.resp s.counter.cur]) ∨
    (∃ ws i src, e = .cmd ws ∧ decode ws = .ok i ∧
      ((∃ rs chars rper, i = .showStatic rs chars rper ∧ rs.toNat = src.val ∧ t.binding.active = .static) ∨
       (∃ rs asc stopEn dir start inc stop aper rper,
          i = .cntConfig rs asc stopEn dir start inc stop aper rper ∧ rs.toNat = src.val ∧
          t.binding.active = .counter) ∨
       (∃ rs asc cont pad aper rper text,
          i = .carConfig rs asc cont pad aper rper text ∧ rs.toNat = src.val ∧ t.binding.active = .carousel) ∨
       (∃ rs asc cont pad coll aper rper text,
          i = .sldConfig rs asc cont pad coll aper rper text ∧ rs.toNat = src.val ∧ t.binding.active = .slider)) ∧
      t.binding.rsrc = some src ∧
      t.trace = s.trace ++ s.binding.rsrc.toList.map .disarm ++ s.binding.asrc.toList.map .disarm ++
        [.arm src t.binding.rper] ++ t.binding.asrc.toList.map (.arm · t.binding.aper))

/-! ## The whole machine -/

/-- R14, R290, R293: the step function is total: no state, no event and no malformed input ends in a fault or a
refusal, and an instruction never does. -/
def Obligations.EveryStepAnswersANextState : Prop :=
  (∀ s : State, ∃ t, step s = .next t) ∧ ∀ (i : Instr) (s : State), ∃ t, exec i s = .next t

/-- An instruction neither reads nor changes the pending events: running it commutes with replacing them (R51, R70). -/
def Obligations.InstructionsIgnorePendingEvents : Prop :=
  ∀ (i : Instr) (s t : State) (events : List Event), exec i s = .next t →
    t.inbox = s.inbox ∧ exec i (s.setInbox events) = .next (t.setInbox events)

/-- R54: the state after reset, element by element; no entry of the two internal memories holds a value. -/
def Obligations.ResetValues : Prop :=
  let s := State.reset
  (s.display.pol = false ∧ s.display.bound = 0b0000 ∧ s.display.dp = false ∧ s.display.digIdx = 3 ∧
    s.display.dbuf.toList = [0x20, 0x20, 0x20, 0x20] ∧
    s.display.pins.seg = 0b0000000 ∧ s.display.pins.dp = false ∧ s.display.pins.dig = 0b1111) ∧
  (s.binding.active = .none ∧ s.binding.rsrc = none ∧ s.binding.rper = 0 ∧ s.binding.asrc = none ∧
    s.binding.aper = 0) ∧
  (s.counter.start = 0 ∧ s.counter.cur = 0 ∧ s.counter.norm = 0 ∧ s.counter.inc = 0 ∧ s.counter.stop = 0 ∧
    s.counter.dir = .increase ∧ s.counter.stopEn = false ∧ s.counter.pause = false) ∧
  (s.carousel.len = 0 ∧ s.carousel.idx.toInt = -1 ∧ s.carousel.cont = false ∧ s.carousel.pause = false ∧
    s.carousel.ovf = false ∧ ∀ j, Memory.read? s.carousel.buf j = none) ∧
  (s.slider.len = 0 ∧ s.slider.page = 0 ∧ s.slider.cont = false ∧ s.slider.pause = false ∧
    ∀ j, Memory.read? s.slider.buf j = none)

/-- R320, R322: a reset at any point of a run emits nothing, leaves no digit enabled and nothing lit, and every tick
after it is ignored until a configure binds a source. That it keeps the events still to come is the model's choice (log
entry 10). -/
def Obligations.ResetEventLeavesNothingLitOrBound : Prop :=
  ∀ s : State, ∃ t, deliver .reset s = .next t ∧ t.trace = s.trace ∧ t.inbox = s.inbox ∧
    t.display = State.reset.display ∧ t.binding = State.reset.binding ∧ t.counter = State.reset.counter ∧
    t.carousel = State.reset.carousel ∧ t.slider = State.reset.slider ∧
    (∀ k, digitEnabled blockParams t.display k = false) ∧
    (∀ j, j < 7 → segmentLit blockParams t.display j = false) ∧
    ∀ code, exec (.tick code) t = .next t

/-- R146, R322: the pin levels hold until a refresh, a SETUP_DISPLAY or a reset writes them; with no refresh source bound
no tick does. -/
def Obligations.PinLevelsHoldBetweenWrites : Prop :=
  ∀ (e : Event) (s t : State), deliver e s = .next t → t.display.pins ≠ s.display.pins →
    e = .reset ∨ (∃ ws bound pol, e = .cmd ws ∧ decode ws = .ok (.setupDisplay bound pol)) ∨
    ∃ code src, e = .tick code ∧ code.toNat = src.val ∧ s.binding.rsrc = some src

/-- R29, R30, R31: ACTIVE, the sources and the periods change only by a reset or by an accepted configure, which sets
ACTIVE to its own behavior. -/
def Obligations.OnlyConfiguresRebind : Prop :=
  ∀ (e : Event) (s t : State), deliver e s = .next t → t.binding ≠ s.binding →
    e = .reset ∨ ∃ ws i, e = .cmd ws ∧ decode ws = .ok i ∧
      ((∃ rs chars rper, i = .showStatic rs chars rper ∧ t.binding.active = .static) ∨
       (∃ rs asc stopEn dir start inc stop aper rper,
          i = .cntConfig rs asc stopEn dir start inc stop aper rper ∧ t.binding.active = .counter) ∨
       (∃ rs asc cont pad aper rper text,
          i = .carConfig rs asc cont pad aper rper text ∧ t.binding.active = .carousel) ∨
       (∃ rs asc cont pad coll aper rper text,
          i = .sldConfig rs asc cont pad coll aper rper text ∧ t.binding.active = .slider))

/-- The invariant holds at reset, whatever events are to come (R32, R54). -/
def Obligations.InvariantHoldsAtReset : Prop := ∀ events : List Event, Inv (State.reset.setInbox events)

/-- The invariant of the block (R29-R32, R41-R49, R62, R63, R75, R142): from every state that meets it, every step leads
to a state that meets it. -/
def Obligations.EveryStepKeepsTheInvariant : Prop :=
  ∀ s t : State, Inv s → step s = .next t → Inv t

/-- R32, R142, R149 along every run: the two roles never share a source, at most one digit position is enabled at any
time, and an unbound position is never enabled. -/
def Obligations.AtMostOneBoundDigitIsEverEnabled : Prop :=
  ∀ s : State, Reachable s →
    (∀ a, s.binding.asrc = some a → s.binding.rsrc ≠ some a) ∧
    (∀ k l, digitEnabled blockParams s.display k = true → digitEnabled blockParams s.display l = true → k = l) ∧
    ∀ k, digitEnabled blockParams s.display k = true → s.display.bound.getLsbD k.val = true

/-- R75, R54: buffer entries at or beyond the current lengths are never observed: two states that differ only there step
to two states that differ only there, with the same pins, records and every other element. -/
def Obligations.StaleBufferEntriesAreNeverObserved : Prop :=
  ∀ s t s' t' : State, SameBelowLengths s t → step s = .next s' → step t = .next t' → SameBelowLengths s' t'

/-- R298: no order of simultaneous events is fixed: in a state with the counter active, refresh bound to source 0 and
counting to source 1, both orders of a refresh tick and a counting tick stand at the end of a run from reset, and they
show different segments. The example's masks are those of the instance's table (log entry 4), and the order of events is
the model's list (log entry 1). -/
def Obligations.RefreshAndAnimationOrderIsObservable : Prop :=
  ∃ s t u : State, Inv s ∧ s.binding.active = .counter ∧ s.binding.rsrc = some 0 ∧ s.binding.asrc = some 1 ∧
    Reachable (s.setInbox [.tick 0, .tick 1]) ∧ Reachable (s.setInbox [.tick 1, .tick 0]) ∧
    Sys2Proof.core.run 2 (s.setInbox [.tick 0, .tick 1]) = .next t ∧
    Sys2Proof.core.run 2 (s.setInbox [.tick 1, .tick 0]) = .next u ∧
    t.display.dbuf = u.display.dbuf ∧ t.display.pins.seg ≠ u.display.pins.seg
end

