-- ==== Sys2Proof/Laws/Memory.lean ====
section
/-! SUPPORT. The laws of the internal memories: a read after a write, the canonical form, and a sequence written from an
index up. -/

namespace Sys2Proof.Machine

@[simp] theorem Memory.read?_nil (a : Nat) : Memory.read? [] a = none := rfl

theorem Memory.read?_cons (b : Nat) (v : Byte) (m : Memory) (a : Nat) :
    Memory.read? ((b, v) :: m) a = if a = b then some v else Memory.read? m a := rfl

/-- Read after write, same and other index. -/
theorem Memory.read?_write (m : Memory) (a j : Nat) (v : Byte) :
    Memory.read? (Memory.write m a v) j = if j = a then some v else Memory.read? m j := by
  induction m with
  | nil => simp [Memory.write, Memory.read?]
  | cons c m ih =>
    obtain ⟨b, w⟩ := c
    by_cases hlt : a < b
    · simp [Memory.write, hlt, Memory.read?]
    · by_cases hab : a = b
      · subst hab
        by_cases hj : j = a <;> simp [Memory.write, Memory.read?, hj]
      · by_cases hj : j = b
        · subst hj
          simp [Memory.write, hlt, hab, Memory.read?, Ne.symm hab]
        · simp [Memory.write, hlt, hab, Memory.read?, hj, ih]

/-- The indices of a canonical memory lie above its first. -/
theorem Memory.wf_cons (a : Nat) (v : Byte) (m : Memory) :
    Memory.wf ((a, v) :: m) = true ↔ (∀ c, m.head? = some c → a < c.1) ∧ Memory.wf m = true := by
  cases m with
  | nil => simp [Memory.wf]
  | cons c m => simp [Memory.wf]

theorem Memory.head?_write (m : Memory) (a : Nat) (v : Byte) (c : Host.Cell)
    (h : (Memory.write m a v).head? = some c) : c.1 = a ∨ m.head?.map Prod.fst = some c.1 := by
  cases m with
  | nil => simp_all [Memory.write, eq_comm]
  | cons d m =>
    obtain ⟨b, w⟩ := d
    unfold Memory.write at h
    split at h
    · simp_all [eq_comm]
    · split at h
      · simp_all [eq_comm]
      · simp_all

/-- Every write keeps the canonical form. -/
theorem Memory.wf_write (m : Memory) (a : Nat) (v : Byte) (h : Memory.wf m = true) :
    Memory.wf (Memory.write m a v) = true := by
  induction m with
  | nil => rfl
  | cons c m ih =>
    obtain ⟨b, w⟩ := c
    obtain ⟨hhead, htail⟩ := (Memory.wf_cons b w m).1 h
    unfold Memory.write
    split
    · exact (Memory.wf_cons _ _ _).2 ⟨by simp_all, h⟩
    · split
      · subst_vars
        exact (Memory.wf_cons _ _ _).2 ⟨hhead, htail⟩
      · refine (Memory.wf_cons _ _ _).2 ⟨fun c hc => ?_, ih htail⟩
        rcases Memory.head?_write m a v c hc with h1 | h1
        · omega
        · cases m with
          | nil => simp at h1
          | cons d m => simp_all

theorem Memory.within_write (size : Nat) (m : Memory) (a : Nat) (v : Byte) (ha : a < size)
    (h : Memory.within size m = true) : Memory.within size (Memory.write m a v) = true := by
  induction m with
  | nil => simp [Memory.write, Memory.within, ha]
  | cons c m ih =>
    have hcons (d : Host.Cell) (l : Memory) :
        Memory.within size (d :: l) = true ↔ d.1 < size ∧ Memory.within size l = true := by
      simp only [Memory.within, List.all_cons, Bool.and_eq_true, decide_eq_true_eq]
    obtain ⟨hc, hm⟩ := (hcons _ _).1 h
    unfold Memory.write
    split
    · exact (hcons _ _).2 ⟨ha, h⟩
    · split
      · exact (hcons _ _).2 ⟨ha, hm⟩
      · exact (hcons _ _).2 ⟨hc, ih hm⟩

/-- A sequence written from index `a` up: its entries, and the others untouched. -/
theorem Memory.read?_writeFrom (vs : List Byte) (m : Memory) (a j : Nat) :
    Memory.read? (Memory.writeFrom m a vs) j =
      if a ≤ j ∧ j < a + vs.length then vs[j - a]? else Memory.read? m j := by
  induction vs generalizing m a with
  | nil =>
    simp only [Memory.writeFrom, List.length_nil]
    rw [if_neg (by omega)]
  | cons v vs ih =>
    simp only [Memory.writeFrom, ih, Memory.read?_write, List.length_cons]
    by_cases h1 : a + 1 ≤ j ∧ j < a + 1 + vs.length
    · rw [if_pos h1, if_pos (by omega), show j - a = (j - (a + 1)) + 1 by omega, List.getElem?_cons_succ]
    · rw [if_neg h1]
      by_cases h2 : j = a
      · subst h2
        simp
      · rw [if_neg h2, if_neg (by omega)]

theorem Memory.wf_writeFrom (vs : List Byte) (m : Memory) (a : Nat) (h : Memory.wf m = true) :
    Memory.wf (Memory.writeFrom m a vs) = true := by
  induction vs generalizing m a with
  | nil => exact h
  | cons v vs ih => exact ih _ _ (Memory.wf_write m a v h)

theorem Memory.within_writeFrom (size : Nat) (vs : List Byte) (m : Memory) (a : Nat) (ha : a + vs.length ≤ size)
    (h : Memory.within size m = true) : Memory.within size (Memory.writeFrom m a vs) = true := by
  induction vs generalizing m a with
  | nil => exact h
  | cons v vs ih =>
    rw [List.length_cons] at ha
    exact ih _ _ (by omega) (Memory.within_write size m a v (by omega) h)

/-- What a sequence written from entry 0 reads as, whatever the epoch. -/
theorem Memory.entry_writeFrom (b : Config.Buffer) (epoch : Nat) (m : Memory) (vs : List Byte) (j : Nat)
    (hj : j < vs.length) : some (Memory.entry b epoch (Memory.writeFrom m 0 vs) j) = vs[j]? := by
  simp [Memory.entry, Memory.read?_writeFrom, hj]

theorem Memory.filled_iff (len : Nat) (m : Memory) :
    Memory.filled len m = true ↔ ∀ j, j < len → (Memory.read? m j).isSome = true := by
  simp [Memory.filled]

theorem Memory.filled_writeFrom (len : Nat) (m : Memory) (vs : List Byte) (h : len ≤ vs.length) :
    Memory.filled len (Memory.writeFrom m 0 vs) = true := by
  rw [Memory.filled_iff]
  intro j hj
  have hj' : j < vs.length := by omega
  simp [Memory.read?_writeFrom, hj']

end Sys2Proof.Machine
end

