-- ==== Sys2Proof/Laws/Carousel.lean ====
section
/-! SUPPORT. The laws of the carousel's operations: the index as an integer, the window entry by entry, the working
buffer's lengths, and what a configured carousel reads (R210-R213). -/

namespace Sys2Proof.Machine

@[simp] theorem s16_neg_one : s16 (-1) = -1 := by decide

/-- The index moves on by one while it is below the 16-bit limit. -/
theorem s16_add_one (v : BitVec 16) (h : s16 v < 32767) : s16 (v + 1) = s16 v + 1 := by
  have hlo := v.le_toInt
  have hone : (1 : BitVec 16).toInt = 1 := by decide
  simp only [s16] at *
  rw [BitVec.toInt_add, hone]
  apply Int.bmod_eq_of_le <;> simp at * <;> omega

/-- A window, entry by entry. -/
theorem carWindow_get (epoch : Nat) (c : Carousel) (i : Int) (k : Fin 4) :
    (carWindow epoch c i)[k] = carChar epoch c i k.val := by
  obtain ⟨k, hk⟩ := k
  obtain rfl | rfl | rfl | rfl : k = 0 ∨ k = 1 ∨ k = 2 ∨ k = 3 := by omega
  all_goals rfl

/-- The working buffer covers the sequence length, which is at least 1, and fits in K_BUF. -/
theorem carBuild_length (text : List Byte) (cont pad : Bool) :
    (carBuild text cont pad).2 ≤ (carBuild text cont pad).1.length ∧
    (carBuild text cont pad).1.length ≤ text.length + 8 ∧
    (carBuild text cont pad).2 ≤ text.length + 4 ∧ 1 ≤ (carBuild text cont pad).2 := by
  cases pad <;> cases cont <;> simp [carBuild, blanks]

/-- Entry (i + k) mod K_LEN of a carousel that holds a configured text is that of the working buffer (R211, R213). -/
theorem carChar_configured (epoch : Nat) (c c' : Carousel) (text : List Byte) (cont pad : Bool)
    (hl : text.length ≤ 248) (hbuf : c'.buf = (carConfigured c text cont pad).buf)
    (hlen : c'.len = (carConfigured c text cont pad).len) (i k : Nat) :
    some (carChar epoch c' i k) = (carBuild text cont pad).1[(i + k) % (carBuild text cont pad).2]? := by
  obtain ⟨h1, h2, h3, h4⟩ := carBuild_length text cont pad
  have hnat : c'.len.toNat = (carBuild text cont pad).2 := by
    rw [hlen]
    show (BitVec.ofNat 16 (carBuild text cont pad).2).toNat = _
    rw [BitVec.toNat_ofNat, Nat.mod_eq_of_lt]
    omega
  have hidx : (((i : Int) + (k : Int)) % ((c'.len.toNat : Nat) : Int)).toNat = (i + k) % (carBuild text cont pad).2 := by
    rw [hnat, ← Int.natCast_add, ← Int.natCast_emod]
    rfl
  have hlt := Nat.mod_lt (i + k) (show 0 < (carBuild text cont pad).2 by omega)
  rw [carChar, hidx, hbuf]
  exact Memory.entry_writeFrom _ _ _ _ _ (by omega)

end Sys2Proof.Machine
end

