-- ==== Sys2Proof/Laws/State.lean ====
section
/-! SUPPORT. One lemma per field per update of the state, so that no later proof unfolds a record update; and that the
operations which touch a group leave the others. -/

namespace Sys2Proof.Machine

/-! ## setDisplay -/

@[simp] theorem State.setDisplay_display (d : Display) (s : State) : (s.setDisplay d).display = d := rfl
@[simp] theorem State.setDisplay_binding (d : Display) (s : State) : (s.setDisplay d).binding = s.binding := rfl
@[simp] theorem State.setDisplay_counter (d : Display) (s : State) : (s.setDisplay d).counter = s.counter := rfl
@[simp] theorem State.setDisplay_carousel (d : Display) (s : State) : (s.setDisplay d).carousel = s.carousel := rfl
@[simp] theorem State.setDisplay_slider (d : Display) (s : State) : (s.setDisplay d).slider = s.slider := rfl
@[simp] theorem State.setDisplay_inbox (d : Display) (s : State) : (s.setDisplay d).inbox = s.inbox := rfl
@[simp] theorem State.setDisplay_trace (d : Display) (s : State) : (s.setDisplay d).trace = s.trace := rfl
@[simp] theorem State.setDisplay_epoch (d : Display) (s : State) : (s.setDisplay d).epoch = s.epoch := rfl

/-! ## setBinding -/

@[simp] theorem State.setBinding_display (b : Binding) (s : State) : (s.setBinding b).display = s.display := rfl
@[simp] theorem State.setBinding_binding (b : Binding) (s : State) : (s.setBinding b).binding = b := rfl
@[simp] theorem State.setBinding_counter (b : Binding) (s : State) : (s.setBinding b).counter = s.counter := rfl
@[simp] theorem State.setBinding_carousel (b : Binding) (s : State) : (s.setBinding b).carousel = s.carousel := rfl
@[simp] theorem State.setBinding_slider (b : Binding) (s : State) : (s.setBinding b).slider = s.slider := rfl
@[simp] theorem State.setBinding_inbox (b : Binding) (s : State) : (s.setBinding b).inbox = s.inbox := rfl
@[simp] theorem State.setBinding_trace (b : Binding) (s : State) : (s.setBinding b).trace = s.trace := rfl
@[simp] theorem State.setBinding_epoch (b : Binding) (s : State) : (s.setBinding b).epoch = s.epoch := rfl

/-! ## setCounter -/

@[simp] theorem State.setCounter_display (c : Counter) (s : State) : (s.setCounter c).display = s.display := rfl
@[simp] theorem State.setCounter_binding (c : Counter) (s : State) : (s.setCounter c).binding = s.binding := rfl
@[simp] theorem State.setCounter_counter (c : Counter) (s : State) : (s.setCounter c).counter = c := rfl
@[simp] theorem State.setCounter_carousel (c : Counter) (s : State) : (s.setCounter c).carousel = s.carousel := rfl
@[simp] theorem State.setCounter_slider (c : Counter) (s : State) : (s.setCounter c).slider = s.slider := rfl
@[simp] theorem State.setCounter_inbox (c : Counter) (s : State) : (s.setCounter c).inbox = s.inbox := rfl
@[simp] theorem State.setCounter_trace (c : Counter) (s : State) : (s.setCounter c).trace = s.trace := rfl
@[simp] theorem State.setCounter_epoch (c : Counter) (s : State) : (s.setCounter c).epoch = s.epoch := rfl

/-! ## setCarousel -/

@[simp] theorem State.setCarousel_display (k : Carousel) (s : State) : (s.setCarousel k).display = s.display := rfl
@[simp] theorem State.setCarousel_binding (k : Carousel) (s : State) : (s.setCarousel k).binding = s.binding := rfl
@[simp] theorem State.setCarousel_counter (k : Carousel) (s : State) : (s.setCarousel k).counter = s.counter := rfl
@[simp] theorem State.setCarousel_carousel (k : Carousel) (s : State) : (s.setCarousel k).carousel = k := rfl
@[simp] theorem State.setCarousel_slider (k : Carousel) (s : State) : (s.setCarousel k).slider = s.slider := rfl
@[simp] theorem State.setCarousel_inbox (k : Carousel) (s : State) : (s.setCarousel k).inbox = s.inbox := rfl
@[simp] theorem State.setCarousel_trace (k : Carousel) (s : State) : (s.setCarousel k).trace = s.trace := rfl
@[simp] theorem State.setCarousel_epoch (k : Carousel) (s : State) : (s.setCarousel k).epoch = s.epoch := rfl

/-! ## setSlider -/

@[simp] theorem State.setSlider_display (l : Slider) (s : State) : (s.setSlider l).display = s.display := rfl
@[simp] theorem State.setSlider_binding (l : Slider) (s : State) : (s.setSlider l).binding = s.binding := rfl
@[simp] theorem State.setSlider_counter (l : Slider) (s : State) : (s.setSlider l).counter = s.counter := rfl
@[simp] theorem State.setSlider_carousel (l : Slider) (s : State) : (s.setSlider l).carousel = s.carousel := rfl
@[simp] theorem State.setSlider_slider (l : Slider) (s : State) : (s.setSlider l).slider = l := rfl
@[simp] theorem State.setSlider_inbox (l : Slider) (s : State) : (s.setSlider l).inbox = s.inbox := rfl
@[simp] theorem State.setSlider_trace (l : Slider) (s : State) : (s.setSlider l).trace = s.trace := rfl
@[simp] theorem State.setSlider_epoch (l : Slider) (s : State) : (s.setSlider l).epoch = s.epoch := rfl

/-! ## setInbox -/

@[simp] theorem State.setInbox_display (es : List Event) (s : State) : (s.setInbox es).display = s.display := rfl
@[simp] theorem State.setInbox_binding (es : List Event) (s : State) : (s.setInbox es).binding = s.binding := rfl
@[simp] theorem State.setInbox_counter (es : List Event) (s : State) : (s.setInbox es).counter = s.counter := rfl
@[simp] theorem State.setInbox_carousel (es : List Event) (s : State) : (s.setInbox es).carousel = s.carousel := rfl
@[simp] theorem State.setInbox_slider (es : List Event) (s : State) : (s.setInbox es).slider = s.slider := rfl
@[simp] theorem State.setInbox_inbox (es : List Event) (s : State) : (s.setInbox es).inbox = es := rfl
@[simp] theorem State.setInbox_trace (es : List Event) (s : State) : (s.setInbox es).trace = s.trace := rfl
@[simp] theorem State.setInbox_epoch (es : List Event) (s : State) : (s.setInbox es).epoch = s.epoch := rfl

/-! ## emit -/

@[simp] theorem State.emit_display (rs : List OutputRecord) (s : State) : (s.emit rs).display = s.display := rfl
@[simp] theorem State.emit_binding (rs : List OutputRecord) (s : State) : (s.emit rs).binding = s.binding := rfl
@[simp] theorem State.emit_counter (rs : List OutputRecord) (s : State) : (s.emit rs).counter = s.counter := rfl
@[simp] theorem State.emit_carousel (rs : List OutputRecord) (s : State) : (s.emit rs).carousel = s.carousel := rfl
@[simp] theorem State.emit_slider (rs : List OutputRecord) (s : State) : (s.emit rs).slider = s.slider := rfl
@[simp] theorem State.emit_inbox (rs : List OutputRecord) (s : State) : (s.emit rs).inbox = s.inbox := rfl
@[simp] theorem State.emit_trace (rs : List OutputRecord) (s : State) : (s.emit rs).trace = s.trace ++ rs := rfl
@[simp] theorem State.emit_epoch (rs : List OutputRecord) (s : State) : (s.emit rs).epoch = s.epoch := rfl

/-! ## setDbuf -/

@[simp] theorem State.setDbuf_display (w : Window) (s : State) : (s.setDbuf w).display = { s.display with dbuf := w } := rfl
@[simp] theorem State.setDbuf_binding (w : Window) (s : State) : (s.setDbuf w).binding = s.binding := rfl
@[simp] theorem State.setDbuf_counter (w : Window) (s : State) : (s.setDbuf w).counter = s.counter := rfl
@[simp] theorem State.setDbuf_carousel (w : Window) (s : State) : (s.setDbuf w).carousel = s.carousel := rfl
@[simp] theorem State.setDbuf_slider (w : Window) (s : State) : (s.setDbuf w).slider = s.slider := rfl
@[simp] theorem State.setDbuf_inbox (w : Window) (s : State) : (s.setDbuf w).inbox = s.inbox := rfl
@[simp] theorem State.setDbuf_trace (w : Window) (s : State) : (s.setDbuf w).trace = s.trace := rfl
@[simp] theorem State.setDbuf_epoch (w : Window) (s : State) : (s.setDbuf w).epoch = s.epoch := rfl

/-! ## setActive -/

@[simp] theorem State.setActive_display (b : Behavior) (s : State) : (s.setActive b).display = s.display := rfl
@[simp] theorem State.setActive_binding (b : Behavior) (s : State) : (s.setActive b).binding = { s.binding with active := b } := rfl
@[simp] theorem State.setActive_counter (b : Behavior) (s : State) : (s.setActive b).counter = s.counter := rfl
@[simp] theorem State.setActive_carousel (b : Behavior) (s : State) : (s.setActive b).carousel = s.carousel := rfl
@[simp] theorem State.setActive_slider (b : Behavior) (s : State) : (s.setActive b).slider = s.slider := rfl
@[simp] theorem State.setActive_inbox (b : Behavior) (s : State) : (s.setActive b).inbox = s.inbox := rfl
@[simp] theorem State.setActive_trace (b : Behavior) (s : State) : (s.setActive b).trace = s.trace := rfl
@[simp] theorem State.setActive_epoch (b : Behavior) (s : State) : (s.setActive b).epoch = s.epoch := rfl

/-! ## The pin drive and the binding procedure -/

@[simp] theorem drive_display (P : Config.Params) (seg : BitVec 7) (dp : Bool) (dig : BitVec 4) (s : State) :
    (drive P seg dp dig s).display = { s.display with pins := driveLevels P s.display.pol seg dp dig } := rfl
@[simp] theorem drive_binding (P : Config.Params) (seg : BitVec 7) (dp : Bool) (dig : BitVec 4) (s : State) :
    (drive P seg dp dig s).binding = s.binding := rfl
@[simp] theorem drive_counter (P : Config.Params) (seg : BitVec 7) (dp : Bool) (dig : BitVec 4) (s : State) :
    (drive P seg dp dig s).counter = s.counter := rfl
@[simp] theorem drive_carousel (P : Config.Params) (seg : BitVec 7) (dp : Bool) (dig : BitVec 4) (s : State) :
    (drive P seg dp dig s).carousel = s.carousel := rfl
@[simp] theorem drive_slider (P : Config.Params) (seg : BitVec 7) (dp : Bool) (dig : BitVec 4) (s : State) :
    (drive P seg dp dig s).slider = s.slider := rfl
@[simp] theorem drive_inbox (P : Config.Params) (seg : BitVec 7) (dp : Bool) (dig : BitVec 4) (s : State) :
    (drive P seg dp dig s).inbox = s.inbox := rfl
@[simp] theorem drive_trace (P : Config.Params) (seg : BitVec 7) (dp : Bool) (dig : BitVec 4) (s : State) :
    (drive P seg dp dig s).trace = s.trace := rfl
@[simp] theorem drive_epoch (P : Config.Params) (seg : BitVec 7) (dp : Bool) (dig : BitVec 4) (s : State) :
    (drive P seg dp dig s).epoch = s.epoch := rfl

@[simp] theorem bindSources_display (r : Source) (rp : Word) (anim : Option Source) (ap : Word) (s : State) :
    (bindSources r rp anim ap s).display = s.display := rfl
@[simp] theorem bindSources_binding (r : Source) (rp : Word) (anim : Option Source) (ap : Word) (s : State) :
    (bindSources r rp anim ap s).binding = { s.binding with rsrc := some r, rper := rp, asrc := anim, aper := ap } := rfl
@[simp] theorem bindSources_counter (r : Source) (rp : Word) (anim : Option Source) (ap : Word) (s : State) :
    (bindSources r rp anim ap s).counter = s.counter := rfl
@[simp] theorem bindSources_carousel (r : Source) (rp : Word) (anim : Option Source) (ap : Word) (s : State) :
    (bindSources r rp anim ap s).carousel = s.carousel := rfl
@[simp] theorem bindSources_slider (r : Source) (rp : Word) (anim : Option Source) (ap : Word) (s : State) :
    (bindSources r rp anim ap s).slider = s.slider := rfl
@[simp] theorem bindSources_inbox (r : Source) (rp : Word) (anim : Option Source) (ap : Word) (s : State) :
    (bindSources r rp anim ap s).inbox = s.inbox := rfl
@[simp] theorem bindSources_trace (r : Source) (rp : Word) (anim : Option Source) (ap : Word) (s : State) :
    (bindSources r rp anim ap s).trace = s.trace ++ bindRecords s.binding r rp anim ap := rfl
@[simp] theorem bindSources_epoch (r : Source) (rp : Word) (anim : Option Source) (ap : Word) (s : State) :
    (bindSources r rp anim ap s).epoch = s.epoch := rfl

end Sys2Proof.Machine
end

