-- ==== Sys2Proof/Laws/Ops.lean ====
section
/-! SUPPORT. One lemma per shared operation, saying what it answers: source and direction codes, the sources of a
configure, the pin drive read back as logical outputs, the records of Bind. -/

namespace Sys2Proof.Machine

/-! ## Source and direction codes -/

theorem sourceOf_of_eq {code : SourceCode} {src : Source} (h : code.toNat = src.val) : sourceOf code = some src := by
  simp [sourceOf, h]

theorem sourceOf_of_gt {code : SourceCode} (h : 4 < code.toNat) : sourceOf code = none := by
  simp [sourceOf]
  omega

theorem toNat_of_sourceOf {code : SourceCode} {src : Source} (h : sourceOf code = some src) :
    code.toNat = src.val := by
  simp only [sourceOf, Option.dite_none_right_eq_some, Option.some.injEq] at h
  obtain ⟨_, rfl⟩ := h
  rfl

/-- The code of a source, as a tick or a command carries it. -/
theorem code_eq_iff (code : SourceCode) (src : Source) : code = BitVec.ofNat 3 src.val ↔ code.toNat = src.val := by
  rw [← BitVec.toNat_inj, BitVec.toNat_ofNat, Nat.mod_eq_of_lt (by omega)]

/-- A configure's sources are accepted exactly if both codes name a source and the two differ (R273, R274). -/
theorem configSources_eq_some_iff (rs asc : SourceCode) (r a : Source) :
    configSources rs asc = some (r, a) ↔ rs.toNat = r.val ∧ asc.toNat = a.val ∧ a ≠ r := by
  constructor
  · intro h
    unfold configSources at h
    split at h
    · rename_i r' a' hr ha
      split at h
      · simp at h
      · rename_i hne
        simp only [Option.some.injEq, Prod.mk.injEq] at h
        obtain ⟨rfl, rfl⟩ := h
        exact ⟨toNat_of_sourceOf hr, toNat_of_sourceOf ha, hne⟩
    · simp at h
  · rintro ⟨hr, ha, hne⟩
    simp [configSources, sourceOf_of_eq hr, sourceOf_of_eq ha, hne]

theorem configSources_eq_none_iff (rs asc : SourceCode) :
    configSources rs asc = none ↔ asc = rs ∨ 4 < rs.toNat ∨ 4 < asc.toNat := by
  by_cases hr : 4 < rs.toNat
  · simp [configSources, sourceOf_of_gt hr, hr]
  by_cases ha : 4 < asc.toNat
  · simp only [configSources, sourceOf_of_gt ha, ha, or_true]
    cases sourceOf rs <;> simp
  have hr' := sourceOf_of_eq (code := rs) (src := ⟨rs.toNat, by omega⟩) rfl
  have ha' := sourceOf_of_eq (code := asc) (src := ⟨asc.toNat, by omega⟩) rfl
  simp [configSources, hr', ha', hr, ha, ← BitVec.toNat_inj]

@[simp] theorem directionOf_zero : directionOf 0x00 = some .increase := rfl

@[simp] theorem directionOf_one : directionOf 0x01 = some .decrease := rfl

theorem directionOf_of_ne {code : Byte} (h0 : code ≠ 0x00) (h1 : code ≠ 0x01) : directionOf code = none := by
  rw [directionOf, if_neg h0, if_neg h1]

theorem textFits_iff (text : List Byte) : textFits text = true ↔ text.length ≤ 248 := by
  show decide (text.length ≤ Config.textCap) = true ↔ text.length ≤ Config.textCap
  exact decide_eq_true_iff

/-! ## Logical outputs -/

section Outputs

variable {P : Config.Params} {d : Display} {seg : BitVec 7} {dp : Bool} {dig : BitVec 4}

/-- Segments driven under the current polarity are lit where the mask is 1 (R142, R144). -/
theorem segmentLit_driven (h : d.pins = driveLevels P d.pol seg dp dig) (j : Nat) (hj : j < 7) :
    segmentLit P d j = seg.getLsbD j := by
  simp only [segmentLit, h, driveLevels]
  split <;> simp [hj]

theorem pointLit_driven (h : d.pins = driveLevels P d.pol seg dp dig) : pointLit P d = dp := by
  simp only [pointLit, h, driveLevels]
  split <;> simp

theorem digitEnabled_driven (h : d.pins = driveLevels P d.pol seg dp dig) (k : Position) :
    digitEnabled P d k = dig.getLsbD k.val := by
  simp only [digitEnabled, h, driveLevels]
  split <;> simp

end Outputs

/-- The enables of position i: only i, and only if it is bound (R140, R143). -/
theorem getLsbD_digitEnable (bound : BitVec 4) (i k : Position) :
    (digitEnable bound i).getLsbD k.val = true ↔ k = i ∧ bound.getLsbD i.val = true := by
  revert bound i k
  decide

/-! ## Counter values -/

/-- A counting step upwards, as integers. -/
theorem countStep_increase (v inc : Word) :
    countStep .increase v inc = BitVec.ofInt 32 (v.toInt + (inc.toNat : Int)) := by
  rw [BitVec.ofInt_add, BitVec.ofInt_toInt, BitVec.ofInt_natCast, BitVec.ofNat_toNat, BitVec.setWidth_eq]
  rfl

/-- A counting step downwards, as integers. -/
theorem countStep_decrease (v inc : Word) :
    countStep .decrease v inc = BitVec.ofInt 32 (v.toInt + -(inc.toNat : Int)) := by
  rw [BitVec.ofInt_add, BitVec.ofInt_toInt, BitVec.ofInt_neg, BitVec.ofInt_natCast, BitVec.ofNat_toNat,
    BitVec.setWidth_eq, ← BitVec.sub_eq_add_neg]
  rfl

/-- An integer in the 32-bit range survives `u32` (R11). -/
theorem toInt_ofInt_of_range (x : Int) (hlo : -2147483648 ≤ x) (hhi : x < 2147483648) :
    (BitVec.ofInt 32 x).toInt = x := by
  rw [BitVec.toInt_ofInt_eq_self (by omega) (by simpa using hlo) (by simpa using hhi)]

/-- The projection sees a value modulo 10000 only (R173). -/
theorem proj_eq_of_emod_eq {u v : Word} (h : v.toInt % 10000 = u.toInt % 10000) : proj v = proj u :=
  congrArg (fun n : Int => decimalWindow n.toNat) h

/-! ## Records -/

/-- The records of Bind as lists over the optional sources. -/
theorem bindRecords_eq (old : Binding) (r : Source) (rp : Word) (anim : Option Source) (ap : Word) :
    bindRecords old r rp anim ap = old.rsrc.toList.map .disarm ++ old.asrc.toList.map .disarm ++ [.arm r rp] ++
      anim.toList.map (.arm · ap) := by
  cases h1 : old.rsrc <;> cases h2 : old.asrc <;> cases anim <;> simp [bindRecords, h1, h2, disarmOf, armOf]

end Sys2Proof.Machine
end

