-- ==== Sys2Proof/Laws/Config.lean ====
section
/-! SUPPORT. What a behavior configure can do, once for each: it is ignored, or it is accepted with the sources its codes
name and then writes exactly this state. -/

namespace Sys2Proof.Machine

theorem exec_showStatic_cases (rs : SourceCode) (chars : Window) (rper : Word) (s : State) :
    (4 < rs.toNat ∧ exec (.showStatic rs chars rper) s = .next s) ∨
    (∃ r : Source, rs.toNat = r.val ∧ exec (.showStatic rs chars rper) s =
      .next (bindSources r rper none 0 ((s.setDbuf chars).setActive .static))) := by
  by_cases h : 4 < rs.toNat
  · exact Or.inl ⟨h, by simp [exec, execShowStatic, sourceOf_of_gt h, ignore]⟩
  · have hs := sourceOf_of_eq (code := rs) (src := ⟨rs.toNat, by omega⟩) rfl
    exact Or.inr ⟨⟨rs.toNat, by omega⟩, rfl, by simp [exec, execShowStatic, hs]⟩

theorem exec_cntConfig_cases (rs asc : SourceCode) (stopEn : Bool) (dir : Byte) (start inc stop aper rper : Word)
    (s : State) :
    ((configSources rs asc = none ∨ directionOf dir = none) ∧
      exec (.cntConfig rs asc stopEn dir start inc stop aper rper) s = .next s) ∨
    (∃ r a d, configSources rs asc = some (r, a) ∧ directionOf dir = some d ∧
      exec (.cntConfig rs asc stopEn dir start inc stop aper rper) s =
        .next (bindSources r rper (some a) aper ((s.setCounter
          { start := start, cur := start, norm := start, inc := inc, dir := d, stop := stop, stopEn := stopEn,
            pause := false }).setActive .counter))) := by
  cases hc : configSources rs asc with
  | none => exact Or.inl ⟨Or.inl rfl, by simp [exec, execCntConfig, hc, ignore]⟩
  | some p =>
    cases hd : directionOf dir with
    | none => exact Or.inl ⟨Or.inr rfl, by simp [exec, execCntConfig, hc, hd, ignore]⟩
    | some d => exact Or.inr ⟨p.1, p.2, d, rfl, rfl, by simp [exec, execCntConfig, hc, hd]⟩

theorem exec_carConfig_cases (rs asc : SourceCode) (cont pad : Bool) (aper rper : Word) (text : List Byte) (s : State) :
    ((configSources rs asc = none ∨ 248 < text.length) ∧
      exec (.carConfig rs asc cont pad aper rper text) s = .next s) ∨
    (∃ r a, configSources rs asc = some (r, a) ∧ text.length ≤ 248 ∧
      exec (.carConfig rs asc cont pad aper rper text) s =
        .next (bindSources r rper (some a) aper
          (((s.setCarousel (carConfigured s.carousel text cont pad)).setDbuf
            (carWindow s.epoch (carConfigured s.carousel text cont pad) 0)).setActive .carousel))) := by
  cases hc : configSources rs asc with
  | none => exact Or.inl ⟨Or.inl rfl, by simp [exec, execCarConfig, hc, ignore]⟩
  | some p =>
    by_cases ht : text.length ≤ 248
    · exact Or.inr ⟨p.1, p.2, rfl, ht, by simp [exec, execCarConfig, hc, (textFits_iff text).2 ht]⟩
    · have hf : textFits text = false := by
        rw [Bool.eq_false_iff]
        exact fun h => ht ((textFits_iff text).1 h)
      exact Or.inl ⟨Or.inr (by omega), by simp [exec, execCarConfig, hc, hf, ignore]⟩

theorem exec_sldConfig_cases (rs asc : SourceCode) (cont pad coll : Bool) (aper rper : Word) (text : List Byte)
    (s : State) :
    ((configSources rs asc = none ∨ 248 < text.length) ∧
      exec (.sldConfig rs asc cont pad coll aper rper text) s = .next s) ∨
    (∃ r a, configSources rs asc = some (r, a) ∧ text.length ≤ 248 ∧
      exec (.sldConfig rs asc cont pad coll aper rper text) s =
        .next (bindSources r rper (some a) aper
          (((s.setSlider (sldConfigured s.slider text cont pad coll)).setDbuf
            (sldPage s.epoch (sldConfigured s.slider text cont pad coll) 0)).setActive .slider))) := by
  cases hc : configSources rs asc with
  | none => exact Or.inl ⟨Or.inl rfl, by simp [exec, execSldConfig, hc, ignore]⟩
  | some p =>
    by_cases ht : text.length ≤ 248
    · exact Or.inr ⟨p.1, p.2, rfl, ht, by simp [exec, execSldConfig, hc, (textFits_iff text).2 ht]⟩
    · have hf : textFits text = false := by
        rw [Bool.eq_false_iff]
        exact fun h => ht ((textFits_iff text).1 h)
      exact Or.inl ⟨Or.inr (by omega), by simp [exec, execSldConfig, hc, hf, ignore]⟩

/-- A decoded command is never a tick (R94). -/
theorem decode_ne_tick (ws : List Word) (code : SourceCode) : decode ws ≠ .ok (.tick code) := by
  intro h
  unfold decode at h
  split at h
  · cases h
  · split at h
    · cases h
    · rename_i op _
      split at h
      · cases op <;> cases h
      · cases h

end Sys2Proof.Machine
end

