-- ==== Sys2Proof/Laws/Decode.lean ====
section
/-! SUPPORT. The laws of the command encoding: a header's fields are read back, the opcode map is one to one, a text
packed into words is read back, and what a decoded command looks like. -/

namespace Sys2Proof

/-! ## Opcodes -/

@[simp] theorem Op.ofCode_code (op : Op) : Op.ofCode op.code = some op := by cases op <;> rfl

/-- The opcode map is one to one: the byte an opcode was read from is its code. -/
theorem Op.code_of_ofCode {b : Byte} {op : Op} (h : Op.ofCode b = some op) : b = op.code := by
  have key : ∀ b : Byte, ∀ op ∈ Op.ofCode b, b = op.code := by decide
  exact key b op h

/-! ## Header fields -/

theorem headerWord_toNat (op : Byte) (rs asc : SourceCode) (f0 f1 f2 : Bool) (b3 : Byte) :
    (headerWord op rs asc f0 f1 f2 b3).toNat = op.toNat + 2 ^ 8 * rs.toNat + 2 ^ 11 * asc.toNat
      + 2 ^ 16 * f0.toNat + 2 ^ 17 * f1.toNat + 2 ^ 18 * f2.toNat + 2 ^ 24 * b3.toNat := by
  have := f0.toNat_le
  have := f1.toNat_le
  have := f2.toNat_le
  rw [headerWord, BitVec.toNat_ofNat, Nat.mod_eq_of_lt]
  omega

section HeaderFields

variable (op : Byte) (rs asc : SourceCode) (f0 f1 f2 : Bool) (b3 : Byte)

@[simp] theorem headerOp_headerWord : headerOp (headerWord op rs asc f0 f1 f2 b3) = op := by
  apply BitVec.eq_of_toNat_eq
  rw [headerOp, BitVec.extractLsb'_toNat, headerWord_toNat, Nat.shiftRight_eq_div_pow]
  omega

@[simp] theorem headerRs_headerWord : headerRs (headerWord op rs asc f0 f1 f2 b3) = rs := by
  apply BitVec.eq_of_toNat_eq
  rw [headerRs, BitVec.extractLsb'_toNat, headerWord_toNat, Nat.shiftRight_eq_div_pow]
  omega

@[simp] theorem headerAs_headerWord : headerAs (headerWord op rs asc f0 f1 f2 b3) = asc := by
  apply BitVec.eq_of_toNat_eq
  rw [headerAs, BitVec.extractLsb'_toNat, headerWord_toNat, Nat.shiftRight_eq_div_pow]
  omega

@[simp] theorem headerB3_headerWord : headerB3 (headerWord op rs asc f0 f1 f2 b3) = b3 := by
  have := f0.toNat_le
  have := f1.toNat_le
  have := f2.toNat_le
  apply BitVec.eq_of_toNat_eq
  rw [headerB3, BitVec.extractLsb'_toNat, headerWord_toNat, Nat.shiftRight_eq_div_pow]
  omega

@[simp] theorem headerF0_headerWord : headerF0 (headerWord op rs asc f0 f1 f2 b3) = f0 := by
  rw [headerF0, BitVec.getLsbD, headerWord_toNat, Nat.testBit_eq_decide_div_mod_eq]
  cases f0 <;> simp only [Bool.toNat_true, Bool.toNat_false, decide_eq_true_eq, decide_eq_false_iff_not] <;> omega

@[simp] theorem headerF1_headerWord : headerF1 (headerWord op rs asc f0 f1 f2 b3) = f1 := by
  have := f0.toNat_le
  rw [headerF1, BitVec.getLsbD, headerWord_toNat, Nat.testBit_eq_decide_div_mod_eq]
  cases f1 <;> simp only [Bool.toNat_true, Bool.toNat_false, decide_eq_true_eq, decide_eq_false_iff_not] <;> omega

@[simp] theorem headerF2_headerWord : headerF2 (headerWord op rs asc f0 f1 f2 b3) = f2 := by
  have := f0.toNat_le
  have := f1.toNat_le
  rw [headerF2, BitVec.getLsbD, headerWord_toNat, Nat.testBit_eq_decide_div_mod_eq]
  cases f2 <;> simp only [Bool.toNat_true, Bool.toNat_false, decide_eq_true_eq, decide_eq_false_iff_not] <;> omega

end HeaderFields

/-- Words that agree in a field agree in each of its bits. -/
theorem getLsbD_of_extractLsb'_eq {h g : Word} {a n : Nat} (e : h.extractLsb' a n = g.extractLsb' a n) (i : Nat)
    (ha : a ≤ i) (hn : i < a + n) : h.getLsbD i = g.getLsbD i := by
  have := congrArg (BitVec.getLsbD · (i - a)) e
  simpa [show i - a < n by omega, show a + (i - a) = i by omega] using this

/-- A header word is its fields and its reserved bits (R81). -/
theorem header_ext {h g : Word} (hop : headerOp h = headerOp g) (hrs : headerRs h = headerRs g)
    (has : headerAs h = headerAs g) (h14 : h.extractLsb' 14 2 = g.extractLsb' 14 2) (h0 : headerF0 h = headerF0 g)
    (h1 : headerF1 h = headerF1 g) (h2 : headerF2 h = headerF2 g) (h19 : h.extractLsb' 19 5 = g.extractLsb' 19 5)
    (h3 : headerB3 h = headerB3 g) : h = g := by
  apply BitVec.eq_of_getLsbD_eq
  intro i hi
  obtain r | r | r | r | rfl | rfl | rfl | r | r : i < 8 ∨ 8 ≤ i ∧ i < 11 ∨ 11 ≤ i ∧ i < 14 ∨ 14 ≤ i ∧ i < 16 ∨ i = 16 ∨
    i = 17 ∨ i = 18 ∨ 19 ≤ i ∧ i < 24 ∨ 24 ≤ i := by omega
  · exact getLsbD_of_extractLsb'_eq hop i (by omega) (by omega)
  · exact getLsbD_of_extractLsb'_eq hrs i (by omega) (by omega)
  · exact getLsbD_of_extractLsb'_eq has i (by omega) (by omega)
  · exact getLsbD_of_extractLsb'_eq h14 i (by omega) (by omega)
  · exact h0
  · exact h1
  · exact h2
  · exact getLsbD_of_extractLsb'_eq h19 i (by omega) (by omega)
  · exact getLsbD_of_extractLsb'_eq h3 i (by omega) (by omega)

/-- The reserved gaps of a header that the encoder builds hold 0 (R86). -/
theorem headerWord_gaps (op : Byte) (rs asc : SourceCode) (f0 f1 f2 : Bool) (b3 : Byte) :
    (headerWord op rs asc f0 f1 f2 b3).extractLsb' 14 2 = 0 ∧
    (headerWord op rs asc f0 f1 f2 b3).extractLsb' 19 5 = 0 := by
  have := f0.toNat_le
  have := f1.toNat_le
  have := f2.toNat_le
  simp only [← BitVec.toNat_inj, BitVec.extractLsb'_toNat, headerWord_toNat, Nat.shiftRight_eq_div_pow]
  constructor <;> simp <;> omega

/-- Masking a header with a mask given field by field masks every field and clears the reserved bits. -/
theorem and_headerWord (h : Word) (op : Byte) (rs asc : SourceCode) (f0 f1 f2 : Bool) (b3 : Byte) :
    h &&& headerWord op rs asc f0 f1 f2 b3 =
      headerWord (headerOp h &&& op) (headerRs h &&& rs) (headerAs h &&& asc) (headerF0 h && f0) (headerF1 h && f1)
        (headerF2 h && f2) (headerB3 h &&& b3) := by
  obtain ⟨a, b⟩ := headerWord_gaps op rs asc f0 f1 f2 b3
  obtain ⟨c, d⟩ := headerWord_gaps (headerOp h &&& op) (headerRs h &&& rs) (headerAs h &&& asc) (headerF0 h && f0)
    (headerF1 h && f1) (headerF2 h && f2) (headerB3 h &&& b3)
  have e (m g : Word) (k n : Nat) : (m &&& g).extractLsb' k n = m.extractLsb' k n &&& g.extractLsb' k n :=
    BitVec.extractLsb'_and
  have f (m g : Word) (k : Nat) : (m &&& g).getLsbD k = (m.getLsbD k && g.getLsbD k) := BitVec.getLsbD_and
  apply header_ext
  · rw [headerOp_headerWord, headerOp, e]; congr 1; exact headerOp_headerWord ..
  · rw [headerRs_headerWord, headerRs, e]; congr 1; exact headerRs_headerWord ..
  · rw [headerAs_headerWord, headerAs, e]; congr 1; exact headerAs_headerWord ..
  · rw [c, e, a]; simp
  · rw [headerF0_headerWord, headerF0, f]; congr 1; exact headerF0_headerWord ..
  · rw [headerF1_headerWord, headerF1, f]; congr 1; exact headerF1_headerWord ..
  · rw [headerF2_headerWord, headerF2, f]; congr 1; exact headerF2_headerWord ..
  · rw [d, e, b]; simp
  · rw [headerB3_headerWord, headerB3, e]; congr 1; exact headerB3_headerWord ..

/-! ## Characters in words -/

theorem wordOfChars_toNat (c0 c1 c2 c3 : Byte) :
    (wordOfChars c0 c1 c2 c3).toNat = c0.toNat + 2 ^ 8 * c1.toNat + 2 ^ 16 * c2.toNat + 2 ^ 24 * c3.toNat := by
  rw [wordOfChars, BitVec.toNat_ofNat, Nat.mod_eq_of_lt]
  omega

/-- A character of a packed word. -/
theorem charOfWord_wordOfChars (c : Nat → Byte) (k : Nat) (hk : k < 4) :
    charOfWord (wordOfChars (c 0) (c 1) (c 2) (c 3)) k = c k := by
  apply BitVec.eq_of_toNat_eq
  rw [charOfWord, BitVec.extractLsb'_toNat, wordOfChars_toNat, Nat.shiftRight_eq_div_pow]
  obtain rfl | rfl | rfl | rfl : k = 0 ∨ k = 1 ∨ k = 2 ∨ k = 3 := by omega
  all_goals omega

@[simp] theorem charsOfWord_wordOfChars (w : Window) : charsOfWord (wordOfChars w[0] w[1] w[2] w[3]) = w := by
  have h (k : Nat) (hk : k < 4) : charOfWord (wordOfChars w[0] w[1] w[2] w[3]) k = w[k] := by
    have := charOfWord_wordOfChars (fun k => w.toList.getD k 0) k hk
    obtain rfl | rfl | rfl | rfl : k = 0 ∨ k = 1 ∨ k = 2 ∨ k = 3 := by omega
    all_goals simpa using this
  ext k hk
  rw [← h k hk]
  obtain rfl | rfl | rfl | rfl : k = 0 ∨ k = 1 ∨ k = 2 ∨ k = 3 := by omega
  all_goals rfl

@[simp] theorem length_packText (t : List Byte) : (packText t).length = textWords t.length := by simp [packText]

@[simp] theorem length_unpackText (n : Nat) (ws : List Word) : (unpackText n ws).length = n := by simp [unpackText]

/-- A packed text is read back. -/
theorem unpackText_packText (t : List Byte) : unpackText t.length (packText t) = t := by
  apply List.ext_getElem (by simp)
  intro i h1 h2
  have hi : i / 4 < textWords t.length := by unfold textWords; omega
  have hw : (packText t).getD (i / 4) 0 = wordOfChars (t.getD (4 * (i / 4)) 0) (t.getD (4 * (i / 4) + 1) 0)
      (t.getD (4 * (i / 4) + 2) 0) (t.getD (4 * (i / 4) + 3) 0) := by
    simp [packText, hi]
  have hc := charOfWord_wordOfChars (fun k => t.getD (4 * (i / 4) + k) 0) (i % 4) (by omega)
  simp only [Nat.add_zero] at hc
  simp only [unpackText, List.getElem_map, List.getElem_range, hw]
  rw [hc, show 4 * (i / 4) + i % 4 = i by omega]
  simp [h2]

/-- A character of a packed text stands in its byte of its word (R89). -/
theorem charOfWord_packText (t : List Byte) (j : Nat) (hj : j < t.length) :
    charOfWord ((packText t).getD (j / 4) 0) (j % 4) = t[j] := by
  have h := unpackText_packText t
  have := congrArg (·[j]?) h
  simpa [unpackText, hj] using this

/-! ## What decodes -/

/-- A command decodes exactly if its opcode is listed and its length is the one R88 gives; then it is assembled from its
header and payload. -/
theorem decode_eq_ok_iff (ws : List Word) (i : Instr) :
    decode ws = .ok i ↔ ∃ h payload op, ws = h :: payload ∧ Op.ofCode (headerOp h) = some op ∧
      payload.length + 1 = commandLength op (headerB3 h).toNat ∧ i = assemble op h payload := by
  cases ws with
  | nil => simp [decode]
  | cons h payload =>
    cases hop : Op.ofCode (headerOp h) with
    | none => simp [decode, hop]
    | some op =>
      by_cases hlen : payload.length + 1 = commandLength op (headerB3 h).toNat
      · simp [decode, hop, hlen, eq_comm]
      · simp [decode, hop, hlen]

/-- A header built for an opcode, with a payload of the right length, decodes to what is assembled from them. -/
theorem decode_headerWord (op : Op) (rs asc : SourceCode) (f0 f1 f2 : Bool) (b3 : Byte) (payload : List Word)
    (hlen : payload.length + 1 = commandLength op b3.toNat) :
    decode (headerWord op.code rs asc f0 f1 f2 b3 :: payload) =
      .ok (assemble op (headerWord op.code rs asc f0 f1 f2 b3) payload) :=
  (decode_eq_ok_iff _ _).2 ⟨_, _, op, rfl, by simp, by simpa using hlen, rfl⟩

/-- A command of a textless opcode, from any header with that OP and a payload of its fixed length (R88). -/
theorem decode_textless (op : Op) (h : Word) (payload : List Word) (hop : h.extractLsb' 0 8 = op.code)
    (hlen : payload.length = op.fixedPayload) (htext : op.hasText = false) :
    decode (h :: payload) = .ok (assemble op h payload) := by
  refine (decode_eq_ok_iff _ _).2 ⟨h, payload, op, rfl, ?_, ?_, rfl⟩
  · rw [show headerOp h = op.code from hop]
    simp
  · simp [commandLength, htext, hlen]
    omega

end Sys2Proof
end

