-- ==== Sys2Proof/Laws/Tick.lean ====
section
/-! SUPPORT. What a tick can do: one inversion lemma for the dispatch (R275), the frame of each handler, and a run over a
list of ticks as a fold. -/

namespace Sys2Proof.Machine

/-- R275 once for all: a tick refreshes, animates, or does nothing. -/
theorem tickWith_cases (P : Config.Params) (code : SourceCode) (s : State) :
    (∃ src, code.toNat = src.val ∧ s.binding.rsrc = some src ∧ tickWith P code s = refreshWith P s) ∨
    (∃ src, code.toNat = src.val ∧ s.binding.rsrc ≠ some src ∧ s.binding.asrc = some src ∧
      tickWith P code s = animationTick s) ∨
    ((∀ src : Source, code.toNat = src.val → s.binding.rsrc ≠ some src ∧ s.binding.asrc ≠ some src) ∧
      tickWith P code s = s) := by
  unfold tickWith
  cases hs : sourceOf code with
  | none =>
    refine Or.inr (Or.inr ⟨fun src h => ?_, rfl⟩)
    rw [sourceOf_of_eq h] at hs
    cases hs
  | some src =>
    have hc := toNat_of_sourceOf hs
    have huniq : ∀ src' : Source, code.toNat = src'.val → src' = src := fun src' h => Fin.ext (by omega)
    by_cases hr : s.binding.rsrc = some src
    · exact Or.inl ⟨src, hc, hr, by simp [hr]⟩
    · by_cases ha : s.binding.asrc = some src
      · exact Or.inr (Or.inl ⟨src, hc, hr, ha, by simp [hr, ha]⟩)
      · exact Or.inr (Or.inr ⟨fun src' h => by rw [huniq src' h]; exact ⟨hr, ha⟩, by simp [hr, ha]⟩)

/-- The refresh dispatch (R275). -/
theorem tickWith_refresh {P : Config.Params} {code : SourceCode} {s : State} {src : Source}
    (hc : code.toNat = src.val) (hr : s.binding.rsrc = some src) : tickWith P code s = refreshWith P s := by
  simp [tickWith, sourceOf_of_eq hc, hr]

/-- The animation dispatch (R275). -/
theorem tickWith_animation {P : Config.Params} {code : SourceCode} {s : State} {src : Source}
    (hc : code.toNat = src.val) (hr : s.binding.rsrc ≠ some src) (ha : s.binding.asrc = some src) :
    tickWith P code s = animationTick s := by
  simp [tickWith, sourceOf_of_eq hc, hr, ha]

/-- A tick of a source bound to no role is ignored (R276). -/
theorem tickWith_unbound {P : Config.Params} {code : SourceCode} {s : State}
    (h : ∀ src : Source, code.toNat = src.val → s.binding.rsrc ≠ some src ∧ s.binding.asrc ≠ some src) :
    tickWith P code s = s := by
  unfold tickWith
  cases hs : sourceOf code with
  | none => rfl
  | some src =>
    obtain ⟨hr, ha⟩ := h src (toNat_of_sourceOf hs)
    simp [hr, ha]

/-- What an animation tick can do: nothing, or one of the three handlers for its own behavior. -/
theorem animationTick_cases (s : State) :
    (s.binding.active.animated = false ∧ animationTick s = s) ∨
    (s.binding.active = .counter ∧ animationTick s = cntTick s) ∨
    (s.binding.active = .carousel ∧ animationTick s = carTick s) ∨
    (s.binding.active = .slider ∧ animationTick s = sldTick s) := by
  unfold animationTick
  cases h : s.binding.active <;> simp [Behavior.animated]

/-! ## Frames -/

section Frames

variable (P : Config.Params) (s : State)

@[simp] theorem refreshWith_binding : (refreshWith P s).binding = s.binding := rfl
@[simp] theorem refreshWith_counter : (refreshWith P s).counter = s.counter := rfl
@[simp] theorem refreshWith_carousel : (refreshWith P s).carousel = s.carousel := rfl
@[simp] theorem refreshWith_slider : (refreshWith P s).slider = s.slider := rfl
@[simp] theorem refreshWith_inbox : (refreshWith P s).inbox = s.inbox := rfl
@[simp] theorem refreshWith_trace : (refreshWith P s).trace = s.trace := rfl
@[simp] theorem refreshWith_epoch : (refreshWith P s).epoch = s.epoch := rfl

/-- A carousel tick either does nothing, with an empty sequence, or shows a window and writes its own slot (R212). -/
theorem carTick_cases :
    (s.carousel.len = 0 ∧ carTick s = s) ∨
    (s.carousel.len ≠ 0 ∧ carTick s =
      (s.setDbuf (carWindow s.epoch s.carousel (s16 (carAdvance s.carousel)))).setCarousel
        (carouselTick s.carousel)) := by
  by_cases h : s.carousel.len = 0
  · exact Or.inl ⟨h, by rw [carTick, if_pos h]⟩
  · exact Or.inr ⟨h, by rw [carTick, if_neg h]⟩

/-- An animation tick writes the display buffer and the active behavior's slot only. -/
theorem animationTick_frame :
    (animationTick s).binding = s.binding ∧ (animationTick s).inbox = s.inbox ∧
    (animationTick s).trace = s.trace ∧ (animationTick s).epoch = s.epoch ∧
    (∃ w, (animationTick s).display = { s.display with dbuf := w }) ∧
    (s.binding.active ≠ .counter → (animationTick s).counter = s.counter) ∧
    (s.binding.active ≠ .carousel → (animationTick s).carousel = s.carousel) ∧
    (s.binding.active ≠ .slider → (animationTick s).slider = s.slider) := by
  rcases animationTick_cases s with ⟨_, h⟩ | ⟨hb, h⟩ | ⟨hb, h⟩ | ⟨hb, h⟩ <;> rw [h]
  · exact ⟨rfl, rfl, rfl, rfl, ⟨s.display.dbuf, rfl⟩, fun _ => rfl, fun _ => rfl, fun _ => rfl⟩
  · exact ⟨rfl, rfl, rfl, rfl, ⟨_, rfl⟩, fun h => absurd hb h, fun _ => rfl, fun _ => rfl⟩
  · rcases carTick_cases s with ⟨_, h'⟩ | ⟨_, h'⟩ <;> rw [h']
    · exact ⟨rfl, rfl, rfl, rfl, ⟨s.display.dbuf, rfl⟩, fun _ => rfl, fun _ => rfl, fun _ => rfl⟩
    · exact ⟨rfl, rfl, rfl, rfl, ⟨_, rfl⟩, fun _ => rfl, fun h => absurd hb h, fun _ => rfl⟩
  · exact ⟨rfl, rfl, rfl, rfl, ⟨_, rfl⟩, fun _ => rfl, fun _ => rfl, fun h => absurd hb h⟩

/-- No tick changes the bindings. -/
@[simp] theorem tickWith_binding (code : SourceCode) : (tickWith P code s).binding = s.binding := by
  rcases tickWith_cases P code s with ⟨_, _, _, h⟩ | ⟨_, _, _, _, h⟩ | ⟨_, h⟩ <;> rw [h]
  · rfl
  · exact (animationTick_frame s).1

/-- The number of resets is no tick's business. -/
@[simp] theorem tickWith_epoch (code : SourceCode) : (tickWith P code s).epoch = s.epoch := by
  rcases tickWith_cases P code s with ⟨_, _, _, h⟩ | ⟨_, _, _, _, h⟩ | ⟨_, h⟩ <;> rw [h]
  · rfl
  · exact (animationTick_frame s).2.2.2.1

end Frames

/-! ## Runs -/

theorem animationTick_setInbox (s : State) (es : List Event) :
    animationTick (s.setInbox es) = (animationTick s).setInbox es := by
  have hcar : carTick (s.setInbox es) = (carTick s).setInbox es := by
    by_cases h : s.carousel.len = 0
    · rw [carTick, if_pos (show (s.setInbox es).carousel.len = 0 from h), carTick, if_pos h]
    · rw [carTick, if_neg (show ¬(s.setInbox es).carousel.len = 0 from h), carTick, if_neg h]
      rfl
  unfold animationTick
  simp only [State.setInbox_binding]
  cases s.binding.active with
  | carousel => exact hcar
  | _ => rfl

/-- A tick does not look at the pending events. -/
theorem tickWith_setInbox (P : Config.Params) (code : SourceCode) (s : State) (es : List Event) :
    tickWith P code (s.setInbox es) = (tickWith P code s).setInbox es := by
  rcases tickWith_cases P code s with ⟨src, hc, hr, h⟩ | ⟨src, hc, hr, ha, h⟩ | ⟨hno, h⟩ <;> rw [h]
  · exact tickWith_refresh hc hr
  · exact (tickWith_animation (s := s.setInbox es) hc hr ha).trans (animationTick_setInbox s es)
  · exact tickWith_unbound hno

/-- A step with an event pending delivers it. -/
theorem step_setInbox_cons (s : State) (e : Event) (es : List Event) :
    step (s.setInbox (e :: es)) = deliver e (s.setInbox es) := rfl

/-- The machine's run, one step peeled off. -/
theorem run_succ (n : Nat) (s t : State) (h : step s = .next t) :
    Sys2Proof.core.run (n + 1) s = Sys2Proof.core.run n t := by
  have h' : Sys2Proof.core.step s = .next t := h
  simp only [Host.Core.run, h']

/-- A run over a list of ticks folds the tick dispatch over it and empties the inbox. -/
theorem run_ticks (codes : List SourceCode) (s : State) :
    Sys2Proof.core.run codes.length (s.setInbox (codes.map .tick)) =
      .next ((codes.foldl (fun u code => tickWith blockParams code u) s).setInbox []) := by
  induction codes generalizing s with
  | nil => rfl
  | cons code codes ih =>
    have h : step (s.setInbox ((code :: codes).map .tick)) =
        .next ((tickWith blockParams code s).setInbox (codes.map .tick)) := by
      rw [← tickWith_setInbox]
      rfl
    rw [List.length_cons, run_succ _ _ _ h, ih]
    rfl

/-- The induction over a list of ticks, once: a property that counts the ticks of one source code holds after any list of
ticks, if that code's ticks move it on and every other tick keeps it. -/
theorem ticks_induction (M : Nat → State → Prop) (code : SourceCode)
    (hit : ∀ n s, M n s → M (n + 1) (tickWith blockParams code s))
    (miss : ∀ n s c, c ≠ code → M n s → M n (tickWith blockParams c s)) (codes : List SourceCode) (n : Nat) (s : State)
    (h : M n s) : M (n + codes.count code) (codes.foldl (fun u c => tickWith blockParams c u) s) := by
  induction codes generalizing n s with
  | nil => exact h
  | cons c cs ih =>
    rw [List.foldl_cons, List.count_cons]
    by_cases hc : c = code
    · subst hc
      have := ih (n + 1) _ (hit n s h)
      simpa [Nat.add_assoc, Nat.add_comm 1] using this
    · simpa [hc] using ih n _ (miss n s c hc h)

end Sys2Proof.Machine
end

