-- ==== Sys2Proof/Laws/Events.lean ====
section
/-! SUPPORT. What an event can do, once: the steps a command can make, one constructor a kind, and an event as a reset, a
tick, or a command that is ignored or makes such a step. -/

namespace Sys2Proof.Machine

/-- `CommandStep s i t`: command i leads from s to t. The controls of a slot stand together. -/
inductive CommandStep (s : State) : Instr → State → Prop
  /-- The command is ignored (R15). -/
  | ignored (i : Instr) : CommandStep s i s
  | setupDisplay (bound : BitVec 4) (pol : Bool) :
    CommandStep s (.setupDisplay bound pol) (setupDisplayWith blockParams bound pol s)
  | setDp (dp : Bool) : CommandStep s (.setDp dp) (s.setDisplay { s.display with dp := dp })
  /-- A counter control writes its slot; the five that can clear a pause are named. -/
  | counter (i : Instr) (c : Counter)
    (clears : s.counter.pause = true → c.pause = false → i = .cntResume ∨ i = .cntToggle ∨ i = .cntReset ∨
      (∃ v, i = .cntSetCount v) ∨ ∃ v, i = .cntSetStop v ∧ v ≠ s.counter.cur) :
    CommandStep s i (s.setCounter c)
  /-- CAR_PAUSE, CAR_RESUME, CAR_TOGGLE. -/
  | carouselPause (i : Instr) (pause : Bool) :
    CommandStep s i (s.setCarousel { s.carousel with pause := pause })
  | carouselRestart :
    CommandStep s .carRestart (s.setCarousel { s.carousel with ovf := false, idx := -1, pause := false })
  /-- SLD_PAUSE, SLD_RESUME, SLD_TOGGLE. -/
  | sliderPause (i : Instr) (pause : Bool) : CommandStep s i (s.setSlider { s.slider with pause := pause })
  | sliderRestart : CommandStep s .sldRestart (s.setSlider { s.slider with page := 0, pause := false })
  | readNorm : CommandStep s .cntReadNorm (s.emit [.resp s.counter.norm])
  | readRaw : CommandStep s .cntReadRaw (s.emit [.resp s.counter.cur])
  | showStatic (rs : SourceCode) (chars : Window) (rper : Word) (r : Source) (refresh : rs.toNat = r.val) :
    CommandStep s (.showStatic rs chars rper) (bindSources r rper none 0 ((s.setDbuf chars).setActive .static))
  | cntConfig (rs asc : SourceCode) (stopEn : Bool) (dir : Byte) (start inc stop aper rper : Word) (r a : Source)
    (c : Counter) (refresh : rs.toNat = r.val) (animation : asc.toNat = a.val) (differ : a ≠ r) :
    CommandStep s (.cntConfig rs asc stopEn dir start inc stop aper rper)
      (bindSources r rper (some a) aper ((s.setCounter c).setActive .counter))
  | carConfig (rs asc : SourceCode) (cont pad : Bool) (aper rper : Word) (text : List Byte) (r a : Source)
    (refresh : rs.toNat = r.val) (animation : asc.toNat = a.val) (differ : a ≠ r) (fits : text.length ≤ 248) :
    CommandStep s (.carConfig rs asc cont pad aper rper text)
      (bindSources r rper (some a) aper
        (((s.setCarousel (carConfigured s.carousel text cont pad)).setDbuf
          (carWindow s.epoch (carConfigured s.carousel text cont pad) 0)).setActive .carousel))
  | sldConfig (rs asc : SourceCode) (cont pad coll : Bool) (aper rper : Word) (text : List Byte) (r a : Source)
    (refresh : rs.toNat = r.val) (animation : asc.toNat = a.val) (differ : a ≠ r) (fits : text.length ≤ 248) :
    CommandStep s (.sldConfig rs asc cont pad coll aper rper text)
      (bindSources r rper (some a) aper
        (((s.setSlider (sldConfigured s.slider text cont pad coll)).setDbuf
          (sldPage s.epoch (sldConfigured s.slider text cont pad coll) 0)).setActive .slider))

/-- Every command but a tick makes one of those steps. -/
theorem exec_commandStep (i : Instr) (hi : ∀ code, i ≠ .tick code) (s : State) :
    ∃ t, exec i s = .next t ∧ CommandStep s i t := by
  cases i with
  | tick code => exact absurd rfl (hi code)
  | setupDisplay bound pol => exact ⟨_, rfl, .setupDisplay bound pol⟩
  | setDp dp => exact ⟨_, rfl, .setDp dp⟩
  | showStatic rs chars rper =>
    rcases exec_showStatic_cases rs chars rper s with ⟨_, h⟩ | ⟨r, hr, h⟩
    · exact ⟨_, h, .ignored _⟩
    · exact ⟨_, h, .showStatic rs chars rper r hr⟩
  | cntConfig rs asc stopEn dir start inc stop aper rper =>
    rcases exec_cntConfig_cases rs asc stopEn dir start inc stop aper rper s with ⟨_, h⟩ | ⟨r, a, d, hs, _, h⟩
    · exact ⟨_, h, .ignored _⟩
    · obtain ⟨hr, ha, hne⟩ := (configSources_eq_some_iff _ _ _ _).1 hs
      exact ⟨_, h, .cntConfig _ _ _ _ _ _ _ _ _ r a _ hr ha hne⟩
  | carConfig rs asc cont pad aper rper text =>
    rcases exec_carConfig_cases rs asc cont pad aper rper text s with ⟨_, h⟩ | ⟨r, a, hs, hl, h⟩
    · exact ⟨_, h, .ignored _⟩
    · obtain ⟨hr, ha, hne⟩ := (configSources_eq_some_iff _ _ _ _).1 hs
      exact ⟨_, h, .carConfig _ _ _ _ _ _ _ r a hr ha hne hl⟩
  | sldConfig rs asc cont pad coll aper rper text =>
    rcases exec_sldConfig_cases rs asc cont pad coll aper rper text s with ⟨_, h⟩ | ⟨r, a, hs, hl, h⟩
    · exact ⟨_, h, .ignored _⟩
    · obtain ⟨hr, ha, hne⟩ := (configSources_eq_some_iff _ _ _ _).1 hs
      exact ⟨_, h, .sldConfig _ _ _ _ _ _ _ _ r a hr ha hne hl⟩
  | cntReadNorm => exact ⟨_, rfl, .readNorm⟩
  | cntReadRaw => exact ⟨_, rfl, .readRaw⟩
  | carPause | carResume | carToggle => exact ⟨_, rfl, .carouselPause _ _⟩
  | carRestart => exact ⟨_, rfl, .carouselRestart⟩
  | sldPause | sldResume | sldToggle => exact ⟨_, rfl, .sliderPause _ _⟩
  | sldRestart => exact ⟨_, rfl, .sliderRestart⟩
  | cntSetDir dir =>
    simp only [exec, execCntSetDir]
    cases directionOf dir with
    | none => exact ⟨s, rfl, .ignored _⟩
    | some d => exact ⟨_, rfl, .counter _ _ (by simp)⟩
  | cntSetStop v => exact ⟨_, rfl, .counter _ _ (by simp [setStopPause])⟩
  | cntPause | cntResume | cntToggle | cntReset | cntSetCount v | cntSetInc v | cntClearStop =>
    exact ⟨_, rfl, .counter _ _ (by simp)⟩

/-- What an event can do: reset, dispatch a tick, change nothing, or run a decoded command. -/
theorem deliver_cases {e : Event} {s t : State} (h : deliver e s = .next t) :
    (e = .reset ∧ t = powerCycle s) ∨
    (∃ code, e = .tick code ∧ t = tickWith blockParams code s) ∨
    t = s ∨
    ∃ ws i, e = .cmd ws ∧ decode ws = .ok i ∧ (∀ code, i ≠ .tick code) ∧ exec i s = .next t ∧ CommandStep s i t := by
  cases e with
  | reset => exact .inl ⟨rfl, (Host.Outcome.next.inj h).symm⟩
  | tick code => exact .inr (.inl ⟨code, rfl, (Host.Outcome.next.inj h).symm⟩)
  | cmd ws =>
    cases hd : decode ws with
    | error r =>
      simp only [deliver, hd, ignore] at h
      exact .inr (.inr (.inl (Host.Outcome.next.inj h).symm))
    | ok i =>
      simp only [deliver, hd] at h
      have hi : ∀ code, i ≠ .tick code := fun code hc => decode_ne_tick ws code (by rw [hd, hc])
      obtain ⟨t', ht', hstep⟩ := exec_commandStep i hi s
      obtain rfl : t = t' := Host.Outcome.next.inj (h.symm.trans ht')
      exact .inr (.inr (.inr ⟨ws, i, rfl, hd, hi, h, hstep⟩))

/-- A step is idle, or delivers the first pending event. -/
theorem step_cases (s : State) :
    (s.inbox = [] ∧ step s = .next s) ∨
    ∃ e rest, s.inbox = e :: rest ∧ step s = deliver e (s.setInbox rest) := by
  cases h : s.inbox with
  | nil => exact .inl ⟨rfl, by simp [step, takeEvent, h, idle]⟩
  | cons e rest => exact .inr ⟨e, rest, rfl, by simp [step, takeEvent, h]⟩

end Sys2Proof.Machine
end

