-- ==== Sys2Proof/Laws/PerInstr.lean ====
section
/-! SUPPORT. The statement family EncodedForm, one lemma per constructor: the encoding of a well-formed command is a
header whose opcode is listed, followed by exactly the payload words R88 gives it (30_encoding.md R87, R88, R91). -/

namespace Sys2Proof.Laws.EncodedForm

/-- Every well-formed instruction but TICK, which has no words (R94), encodes to a header with a listed opcode and a
payload of the length R88 gives. -/
def Statement (i : Instr) : Prop :=
  i.wf = true → (∀ code, i ≠ .tick code) →
    ∃ h payload op, encode i = h :: payload ∧ Op.ofCode (headerOp h) = some op ∧
      payload.length + 1 = commandLength op (headerB3 h).toNat

/-- A header built for an opcode with no text has a listed opcode and the length of its fixed payload. -/
theorem of_headerWord (i : Instr) (op : Op) (rs asc : SourceCode) (f0 f1 f2 : Bool) (b3 : Byte) (payload : List Word)
    (he : encode i = headerWord op.code rs asc f0 f1 f2 b3 :: payload)
    (hl : payload.length + 1 = commandLength op b3.toNat) : Statement i :=
  fun _ _ => ⟨_, _, op, he, by simp, by simpa using hl⟩

theorem setupDisplay (bound : BitVec 4) (pol : Bool) :
    Statement (.setupDisplay bound pol) := of_headerWord _ .setupDisplay _ _ _ _ _ _ _ rfl rfl

theorem setDp (dp : Bool) :
    Statement (.setDp dp) := of_headerWord _ .setDp _ _ _ _ _ _ _ rfl rfl

theorem showStatic (rs : SourceCode) (chars : Window) (rper : Word) :
    Statement (.showStatic rs chars rper) := of_headerWord _ .showStatic _ _ _ _ _ _ _ rfl rfl

theorem cntConfig (rs asc : SourceCode) (stopEn : Bool) (dir : Byte) (start inc stop aper rper : Word) :
    Statement (.cntConfig rs asc stopEn dir start inc stop aper rper) := of_headerWord _ .cntConfig _ _ _ _ _ _ _ rfl rfl

theorem cntPause : Statement .cntPause := of_headerWord _ .cntPause _ _ _ _ _ _ _ rfl rfl

theorem cntResume : Statement .cntResume := of_headerWord _ .cntResume _ _ _ _ _ _ _ rfl rfl

theorem cntToggle : Statement .cntToggle := of_headerWord _ .cntToggle _ _ _ _ _ _ _ rfl rfl

theorem cntReset : Statement .cntReset := of_headerWord _ .cntReset _ _ _ _ _ _ _ rfl rfl

theorem cntSetCount (v : Word) :
    Statement (.cntSetCount v) := of_headerWord _ .cntSetCount _ _ _ _ _ _ _ rfl rfl

theorem cntSetInc (v : Word) :
    Statement (.cntSetInc v) := of_headerWord _ .cntSetInc _ _ _ _ _ _ _ rfl rfl

theorem cntSetDir (dir : Byte) :
    Statement (.cntSetDir dir) := of_headerWord _ .cntSetDir _ _ _ _ _ _ _ rfl rfl

theorem cntSetStop (v : Word) :
    Statement (.cntSetStop v) := of_headerWord _ .cntSetStop _ _ _ _ _ _ _ rfl rfl

theorem cntClearStop : Statement .cntClearStop := of_headerWord _ .cntClearStop _ _ _ _ _ _ _ rfl rfl

theorem cntReadNorm : Statement .cntReadNorm := of_headerWord _ .cntReadNorm _ _ _ _ _ _ _ rfl rfl

theorem cntReadRaw : Statement .cntReadRaw := of_headerWord _ .cntReadRaw _ _ _ _ _ _ _ rfl rfl

theorem carConfig (rs asc : SourceCode) (cont pad : Bool) (aper rper : Word) (text : List Byte) :
    Statement (.carConfig rs asc cont pad aper rper text) := by
  intro hwf _
  have hlen : text.length ≤ 255 := by simpa [Instr.wf] using hwf
  refine ⟨_, _, .carConfig, rfl, by simp, ?_⟩
  simp [commandLength, Op.fixedPayload, Op.hasText, Nat.mod_eq_of_lt (show text.length < 256 by omega)]
  omega

theorem carPause : Statement .carPause := of_headerWord _ .carPause _ _ _ _ _ _ _ rfl rfl

theorem carResume : Statement .carResume := of_headerWord _ .carResume _ _ _ _ _ _ _ rfl rfl

theorem carToggle : Statement .carToggle := of_headerWord _ .carToggle _ _ _ _ _ _ _ rfl rfl

theorem carRestart : Statement .carRestart := of_headerWord _ .carRestart _ _ _ _ _ _ _ rfl rfl

theorem sldConfig (rs asc : SourceCode) (cont pad coll : Bool) (aper rper : Word) (text : List Byte) :
    Statement (.sldConfig rs asc cont pad coll aper rper text) := by
  intro hwf _
  have hlen : text.length ≤ 255 := by simpa [Instr.wf] using hwf
  refine ⟨_, _, .sldConfig, rfl, by simp, ?_⟩
  simp [commandLength, Op.fixedPayload, Op.hasText, Nat.mod_eq_of_lt (show text.length < 256 by omega)]
  omega

theorem sldPause : Statement .sldPause := of_headerWord _ .sldPause _ _ _ _ _ _ _ rfl rfl

theorem sldResume : Statement .sldResume := of_headerWord _ .sldResume _ _ _ _ _ _ _ rfl rfl

theorem sldToggle : Statement .sldToggle := of_headerWord _ .sldToggle _ _ _ _ _ _ _ rfl rfl

theorem sldRestart : Statement .sldRestart := of_headerWord _ .sldRestart _ _ _ _ _ _ _ rfl rfl

theorem tick (code : SourceCode) : Statement (.tick code) := fun _ h => absurd rfl (h code)

end Sys2Proof.Laws.EncodedForm
end

