-- ==== Sys2Proof/Laws/Slider.lean ====
section
/-! SUPPORT. The laws of the slider's operations: the collapse as a recursion over the text, the page entry by entry, the
working buffer's length, and what a configured slider reads (R240-R243). -/

namespace Sys2Proof.Machine

/-! ## Collapse (R240) -/

/-- The collapse read off from left to right; `prevSpace` says whether the character before was a space. -/
def collapseFrom (prevSpace : Bool) : List Byte → List Byte
  | [] => []
  | c :: cs =>
    if c == blank && !prevSpace && cs.head? != some blank then collapseFrom true cs
    else c :: collapseFrom (c == blank) cs

/-- A space is isolated exactly if neither neighbour is one, in terms of what stands before and after it. -/
theorem isolatedSpace_append (pre : List Byte) (c : Byte) (cs : List Byte) :
    isolatedSpace (pre ++ c :: cs) pre.length =
      (c == blank && (pre.getLast? != some blank) && (cs.head? != some blank)) := by
  unfold isolatedSpace
  congr 1
  · congr 1
    · simp
    · cases pre using List.reverseRecOn with
      | nil => simp
      | append_singleton l a =>
        simp
        rfl
  · cases cs with
    | nil => simp
    | cons d ds =>
      have hne : ¬(pre.length + 1 = (pre ++ c :: d :: ds).length) := by simp
      have hd : (pre ++ c :: d :: ds).getD (pre.length + 1) 0 = d := by simp
      have hne' : (pre.length + 1 == (pre ++ c :: d :: ds).length) = false := by simp
      rw [hd, hne']
      rfl

/-- R240's condition in its own terms, at an index of the text. -/
theorem isolatedSpace_eq_decide (text : List Byte) (i : Nat) (hi : i < text.length) :
    isolatedSpace text i = decide (text[i]? = some 0x20 ∧ (i = 0 ∨ text[i - 1]? ≠ some 0x20) ∧
        (i + 1 = text.length ∨ text[i + 1]? ≠ some 0x20)) := by
  unfold isolatedSpace
  have h0 : text[i]? = some text[i] := by simp [hi]
  have h1 : text[i-1]? = some text[i-1] := by simp
  have g0 : text.getD i 0 = text[i] := by simp [hi]
  have g1 : text.getD (i-1) 0 = text[i-1] := by rw [List.getD_eq_getElem?_getD, h1]; rfl
  rw [Bool.eq_iff_iff]
  by_cases hl : i + 1 = text.length
  · rw [g0, g1, h0, h1]; simp [blank, hl]
  · have h2 : text[i+1]? = some (text[i+1]'(by omega)) := by simp
    have g2 : text.getD (i+1) 0 = text[i+1] := by rw [List.getD_eq_getElem?_getD, h2]; rfl
    rw [g0, g1, g2, h0, h1, h2]; simp [blank, hl, and_assoc]

theorem collapse_suffix (cs pre : List Byte) :
    ((List.range' pre.length cs.length).filterMap fun i =>
      if isolatedSpace (pre ++ cs) i then none else some ((pre ++ cs).getD i 0)) =
      collapseFrom (pre.getLast? == some blank) cs := by
  induction cs generalizing pre with
  | nil => rfl
  | cons c cs ih =>
    have step := ih (pre ++ [c])
    simp only [List.append_assoc, List.singleton_append, List.length_append, List.length_singleton,
      List.getLast?_append, List.getLast?_singleton, Option.some_or] at step
    have hc : (pre ++ c :: cs).getD pre.length 0 = c := by simp
    have hb : (some c == some blank) = (c == blank) := rfl
    rw [List.length_cons, List.range'_succ, List.filterMap_cons, isolatedSpace_append, collapseFrom, step, hc, hb]
    by_cases h : c = blank
    · subst h
      simp only [beq_self_eq_true]
      simp only [bne]
      split <;> rename_i h <;> (split at h <;> simp_all)
    · have h' : (c == blank) = false := by simpa using h
      simp [h']

theorem collapse_eq_collapseFrom (text : List Byte) : collapse text = collapseFrom false text := by
  simpa [collapse, List.range_eq_range'] using collapse_suffix text []

theorem length_collapse_le (text : List Byte) : (collapse text).length ≤ text.length := by
  have h := List.length_filterMap_le (fun i => if isolatedSpace text i then none else some (text.getD i 0))
    (List.range text.length)
  simpa [collapse] using h

/-! ## Pages -/

/-- A page, entry by entry. -/
theorem sldPage_get (epoch : Nat) (l : Slider) (p : Nat) (k : Fin 4) :
    (sldPage epoch l p)[k] = sldChar epoch l (p + k.val) := by
  obtain ⟨k, hk⟩ := k
  obtain rfl | rfl | rfl | rfl : k = 0 ∨ k = 1 ∨ k = 2 ∨ k = 3 := by omega
  all_goals rfl

/-- The working buffer is whole pages, at most one more than the text's. -/
theorem sldBuild_length (text : List Byte) (pad coll : Bool) :
    (sldBuild text pad coll).length % 4 = 0 ∧ (sldBuild text pad coll).length ≤ 4 + 4 * ((text.length + 3) / 4) := by
  have h : (if coll then collapse text else text).length ≤ text.length := by
    split
    · exact length_collapse_le _
    · exact Nat.le_refl _
  unfold sldBuild
  simp only [roundUp4]
  generalize (if coll = true then collapse text else text) = body at *
  cases pad <;> simp [blanks] <;> omega

/-- Entry j of a slider that holds a configured text is that of the working buffer, 0x20 past its end (R241, R242). -/
theorem sldChar_configured (epoch : Nat) (l l' : Slider) (text : List Byte) (cont pad coll : Bool)
    (hl : text.length ≤ 248) (hbuf : l'.buf = (sldConfigured l text cont pad coll).buf)
    (hlen : l'.len = (sldConfigured l text cont pad coll).len) (j : Nat) :
    sldChar epoch l' j = (sldBuild text pad coll).getD j 0x20 := by
  obtain ⟨h1, h2⟩ := sldBuild_length text pad coll
  have hnat : l'.len.toNat = (sldBuild text pad coll).length := by
    rw [hlen]
    show (BitVec.ofNat 16 (sldBuild text pad coll).length).toNat = _
    rw [BitVec.toNat_ofNat, Nat.mod_eq_of_lt]
    omega
  rw [sldChar, hnat, List.getD_eq_getElem?_getD]
  split
  · rename_i hj
    rw [hbuf, ← Memory.entry_writeFrom .sBuf epoch l.buf (sldBuild text pad coll) j hj]
    rfl
  · rename_i hj
    rw [List.getElem?_eq_none (by omega)]
    rfl

/-- A slider tick writes the page and the pause only. -/
theorem sliderTick_frame (l : Slider) :
    (sliderTick l).buf = l.buf ∧ (sliderTick l).len = l.len ∧ (sliderTick l).cont = l.cont := by
  unfold sliderTick
  simp only
  split <;> (try split) <;> (try split) <;> exact ⟨rfl, rfl, rfl⟩

end Sys2Proof.Machine
end

