-- ==== Sys2Proof/Machine/Assembler.lean ====
section
/-! DEFINITION. The textual command syntax of 30_encoding.md R96, with R97's pseudo-commands: one line to the instruction
it spells. Named operands are found by name, in any order; a line that spells no command gives none. -/

namespace Sys2Proof.Machine

/-- One operand of a line: a quoted string, `name=value`, or a bare value. -/
inductive AsmOperand
  | str (chars : List Char)
  | named (name value : List Char)
  | bare (value : List Char)
deriving DecidableEq, Repr

/-- Without blanks at both ends. -/
def trimChars (cs : List Char) : List Char :=
  ((cs.dropWhile (· == ' ')).reverse.dropWhile (· == ' ')).reverse

/-- The line up to its comment: `;` outside a string starts one (R96). -/
def stripComment (inString : Bool) : List Char → List Char
  | [] => []
  | c :: cs =>
    if c == ';' && !inString then []
    else c :: stripComment (if c == '"' then !inString else inString) cs

/-- The pieces between commas outside strings; `cur` holds the piece being read, last character first. -/
def splitAtCommas (inString : Bool) (cur : List Char) : List Char → List (List Char)
  | [] => [cur.reverse]
  | c :: cs =>
    if c == ',' && !inString then cur.reverse :: splitAtCommas false [] cs
    else splitAtCommas (if c == '"' then !inString else inString) (c :: cur) cs

/-- One trimmed piece as an operand. DESIGN CHOICE (log entry 15): what stands between a string's closing quote and the
next comma is dropped, and a string without a closing quote runs to the end of its line; R96 says neither. -/
def readOperand (piece : List Char) : AsmOperand :=
  match piece with
  | '"' :: rest => .str (rest.takeWhile (· != '"'))
  | _ =>
    match piece.dropWhile (· != '=') with
    | [] => .bare piece
    | _ :: value => .named (trimChars (piece.takeWhile (· != '='))) (trimChars value)

/-- The operands of what follows the mnemonic. -/
def readOperands (rest : List Char) : List AsmOperand :=
  if trimChars rest == [] then [] else (splitAtCommas false [] rest).map fun p => readOperand (trimChars p)

/-- The value of a digit, up to base 16. -/
def digitValue (c : Char) : Option Nat :=
  let n := c.toNat
  if 0x30 ≤ n && n ≤ 0x39 then some (n - 0x30)
  else if 0x41 ≤ n && n ≤ 0x46 then some (n - 0x41 + 10)
  else if 0x61 ≤ n && n ≤ 0x66 then some (n - 0x61 + 10)
  else none

/-- The digits of a number in a base; at least one. -/
def readDigits (base : Nat) (cs : List Char) : Option Nat :=
  if cs == [] then none
  else cs.foldl (fun acc c => do
    let n ← acc
    let d ← digitValue c
    if d < base then some (n * base + d) else none) (some 0)

/-- A number: decimal, `0x` hex or `0b` binary (R96). -/
def readNat (cs : List Char) : Option Nat :=
  match cs with
  | '0' :: 'x' :: ds => readDigits 16 ds
  | '0' :: 'b' :: ds => readDigits 2 ds
  | _ => readDigits 10 cs

/-- A number with an optional minus sign. -/
def readInt (cs : List Char) : Option Int :=
  match cs with
  | '-' :: ds => (readNat ds).map fun n => -(n : Int)
  | _ => (readNat cs).map fun n => (n : Int)

/-- A number below `bound`. -/
def readBelow (bound : Nat) (cs : List Char) : Option Nat := (readNat cs).filter (· < bound)

/-- `<u32>` -/
def readU32 (cs : List Char) : Option Word := (readBelow (2 ^ 32) cs).map (BitVec.ofNat 32)

/-- `<i32>` -/
def readI32 (cs : List Char) : Option Word :=
  ((readInt cs).filter fun x => decide (-2 ^ 31 ≤ x ∧ x < 2 ^ 31)).map (BitVec.ofInt 32)

/-- `<src>`: 0..7, encoded as written (R96). -/
def readSrc (cs : List Char) : Option SourceCode := (readBelow 8 cs).map (BitVec.ofNat 3)

/-- `<0|1>` -/
def readBit (cs : List Char) : Option Bool := (readBelow 2 cs).map (· == 1)

/-- `<inc|dec|code>`: inc = 0x00, dec = 0x01 (R96). -/
def readDir (cs : List Char) : Option Byte :=
  if cs == "inc".toList then some 0x00
  else if cs == "dec".toList then some 0x01
  else (readBelow 256 cs).map (BitVec.ofNat 8)

/-- The 8-bit codes of a string's characters: ASCII codes are R10's. DESIGN CHOICE (log entry 15): the codes 0x80..0xFF
are spelt by the characters with those Unicode code points, and a string with a larger one is refused; R96 names no
character set. -/
def charCodes (cs : List Char) : Option (List Byte) :=
  if cs.all fun c => c.toNat < 256 then some (cs.map fun c => BitVec.ofNat 8 c.toNat) else none

/-- The value of a named operand. -/
def operandNamed (ops : List AsmOperand) (name : String) : Option (List Char) :=
  ops.findSome? fun o => match o with
    | .named n v => if n == name.toList then some v else none
    | .str _ => none
    | .bare _ => none

/-- The line's string operand, which stands first. -/
def operandString (ops : List AsmOperand) : Option (List Byte) :=
  match ops with
  | .str cs :: _ => charCodes cs
  | _ => none

/-- The line's one bare operand. -/
def operandBare (ops : List AsmOperand) : Option (List Char) :=
  match ops with
  | [.bare v] => some v
  | _ => none

/-- A mnemonic that takes no operand (R96). -/
def plainMnemonic (m : List Char) : Option Instr :=
  [("CNT_PAUSE", Instr.cntPause), ("CNT_RESUME", .cntResume), ("CNT_TOGGLE", .cntToggle), ("CNT_RESET", .cntReset),
   ("CNT_CLEAR_STOP", .cntClearStop), ("CNT_READ_NORM", .cntReadNorm), ("CNT_READ_RAW", .cntReadRaw),
   ("CAR_PAUSE", .carPause), ("CAR_RESUME", .carResume), ("CAR_TOGGLE", .carToggle), ("CAR_RESTART", .carRestart),
   ("SLD_PAUSE", .sldPause), ("SLD_RESUME", .sldResume), ("SLD_TOGGLE", .sldToggle), ("SLD_RESTART", .sldRestart)
  ].findSome? fun row => if row.1.toList == m then some row.2 else none

/-- The instruction a mnemonic with operands spells (R96, R97). -/
def operandMnemonic (m : List Char) (ops : List AsmOperand) : Option Instr :=
  let n := operandNamed ops
  if m == "SETUP_DISPLAY".toList && ops.length == 2 then do
    let bound ← (n "bound").bind (readBelow 16)
    let pol ← (n "pol").bind readBit
    some (.setupDisplay (BitVec.ofNat 4 bound) pol)
  else if m == "SET_DP".toList && ops.length == 1 then (n "dp").bind readBit |>.map .setDp
  else if m == "SHOW_STATIC".toList && ops.length == 3 then do
    let cs ← operandString ops
    let rs ← (n "rs").bind readSrc
    let rper ← (n "rper").bind readU32
    if cs.length = 4 then expandPseudo (.showText cs rs rper) else none
  else if m == "SHOW".toList && ops.length == 3 then do
    let cs ← operandString ops
    let rs ← (n "rs").bind readSrc
    let rper ← (n "rper").bind readU32
    expandPseudo (.showText cs rs rper)
  else if m == "CNT_CONFIG".toList && ops.length == 9 then do
    let start ← (n "start").bind readI32
    let dir ← (n "dir").bind readDir
    let inc ← (n "inc").bind readU32
    let stop ← (n "stop").bind readI32
    let stopEn ← (n "stopen").bind readBit
    let aper ← (n "aper").bind readU32
    let asc ← (n "as").bind readSrc
    let rper ← (n "rper").bind readU32
    let rs ← (n "rs").bind readSrc
    some (.cntConfig rs asc stopEn dir start inc stop aper rper)
  else if m == "CNT_SET_COUNT".toList then (operandBare ops).bind readI32 |>.map .cntSetCount
  else if m == "CNT_SET_INC".toList then (operandBare ops).bind readU32 |>.map .cntSetInc
  else if m == "CNT_SET_STOP".toList then (operandBare ops).bind readI32 |>.map .cntSetStop
  else if m == "CNT_SET_DIR".toList then (operandBare ops).bind readDir |>.map .cntSetDir
  else if m == "CAR_CONFIG".toList && ops.length == 7 then do
    let text ← operandString ops
    let aper ← (n "aper").bind readU32
    let asc ← (n "as").bind readSrc
    let cont ← (n "cont").bind readBit
    let pad ← (n "pad").bind readBit
    let rper ← (n "rper").bind readU32
    let rs ← (n "rs").bind readSrc
    some (.carConfig rs asc cont pad aper rper text)
  else if m == "SLD_CONFIG".toList && ops.length == 8 then do
    let text ← operandString ops
    let aper ← (n "aper").bind readU32
    let asc ← (n "as").bind readSrc
    let cont ← (n "cont").bind readBit
    let pad ← (n "pad").bind readBit
    let coll ← (n "coll").bind readBit
    let rper ← (n "rper").bind readU32
    let rs ← (n "rs").bind readSrc
    some (.sldConfig rs asc cont pad coll aper rper text)
  else if m == "TICK".toList then (operandBare ops).bind readSrc |>.map .tick
  else if m == "CNT_SET_PAUSE".toList then (operandBare ops).bind readNat |>.bind fun v => expandPseudo (.cntSetPause v)
  else if m == "CAR_SET_PAUSE".toList then (operandBare ops).bind readNat |>.bind fun v => expandPseudo (.carSetPause v)
  else if m == "SLD_SET_PAUSE".toList then (operandBare ops).bind readNat |>.bind fun v => expandPseudo (.sldSetPause v)
  else none

/-- The instruction one line spells (R96): the mnemonic up to the first blank, then its operands. An instruction whose
text the encoding cannot carry is refused. -/
def assembleLine (line : String) : Option Instr :=
  let cs := trimChars (stripComment false line.toList)
  let m := cs.takeWhile (· != ' ')
  let ops := readOperands (cs.dropWhile (· != ' '))
  ((if ops.isEmpty then plainMnemonic m else operandMnemonic m ops)).filter (·.wf)

end Sys2Proof.Machine
end

