-- ==== Sys2Proof/Tests/Slice0.lean ====
section
/-! SUPPORT. The model's own tests. Every expected value is the spec's: a worked example of a rule, or a vector of
95_test_vectors.md, named in the test's comment. Each test of a meaning is one step. The witnesses at the end meet the
hypotheses of the statements. -/

namespace Sys2Proof.Machine.Tests

/-! ## Helpers -/

/-- The state after one delivered event. -/
def after (s : State) (e : Event) : Option State :=
  match step (s.setInbox [e]) with
  | .next t => some t
  | .fault _ => none
  | .refused _ => none

/-- The 8-bit codes of a string. -/
def codes (str : String) : List Byte := str.toList.map fun ch => BitVec.ofNat 8 ch.toNat

/-- Bindings as every configure of the test vectors makes them: refresh 0, animation 1. -/
def bound01 (b : Behavior) : Binding := { active := b, rsrc := some 0, rper := 1000, asrc := some 1, aper := 500 }

/-- A display with all four positions bound that shows `chars` next at position `next`. -/
def showing (next : Position) (chars : Window) : Display :=
  { Display.reset with bound := 0xF, dbuf := chars, digIdx := next - 1 }

/-- An active counter. -/
def counting (c : Counter) : State := { State.reset with binding := bound01 .counter, counter := c }

/-- The counter slot of V-C1 at a raw and a normalized count. -/
def countedTo (cur norm : Word) (pause : Bool) : Counter :=
  { start := 9998, cur := cur, norm := norm, inc := 1, dir := .increase, stop := 10001, stopEn := true, pause := pause }

/-- An active carousel, configured with a text, at an index. -/
def scrolling (text : String) (cont pad : Bool) (idx : BitVec 16) : State :=
  { State.reset with
    binding := bound01 .carousel
    carousel := { carConfigured .reset (codes text) cont pad with idx := idx } }

/-- An active slider, configured with a text, at a page. -/
def paging (text : String) (cont pad coll : Bool) (page : BitVec 16) : State :=
  { State.reset with
    binding := bound01 .slider
    slider := { sldConfigured .reset (codes text) cont pad coll with page := page } }

/-! ## Well-formedness: the check refuses an ill-formed term -/

/-- R85: N is a byte. -/
theorem test_wf_car_text :
    (Instr.carConfig 0 1 true false 0 0 (List.replicate 256 0x41)).wf = false ∧
    (Instr.carConfig 0 1 true false 0 0 (List.replicate 255 0x41)).wf = true := by
  simp only [Instr.wf, List.length_replicate]
  decide

theorem test_wf_sld_text :
    (Instr.sldConfig 0 1 true false false 0 0 (List.replicate 256 0x41)).wf = false ∧
    (Instr.sldConfig 0 1 true false false 0 0 (List.replicate 255 0x41)).wf = true := by
  simp only [Instr.wf, List.length_replicate]
  decide

/-! ## Decoding: words written out from R81-R91 -/

/-- Examples of R150 (V-E1), R151 and R152. -/
theorem test_decode_display :
    decode [0x0F000001] = .ok (.setupDisplay 0xF false) ∧
    decode [0x0A010001] = .ok (.setupDisplay 0xA true) ∧
    decode [0x00010002] = .ok (.setDp true) ∧
    decode [0x00000003, 0x312D6241, 0x000003E8] = .ok (.showStatic 0 #v[0x41, 0x62, 0x2D, 0x31] 1000) ∧
    decode [0x00000203, 0x34333231, 0x00000064] = .ok (.showStatic 2 #v[0x31, 0x32, 0x33, 0x34] 100) :=
  ⟨rfl, rfl, rfl, rfl, rfl⟩

/-- R98, V-C5. -/
theorem test_decode_counter_config :
    decode [0x00010810, 0x0000270E, 0x00000001, 0x00002711, 0x000001F4, 0x000003E8] =
      .ok (.cntConfig 0 1 true 0x00 9998 1 10001 500 1000) ∧
    decode [0x01000810, 0, 1, 0, 0x1F4, 0x3E8] = .ok (.cntConfig 0 1 false 0x01 0 1 0 500 1000) :=
  ⟨rfl, rfl⟩

/-- Examples of R174-R184. -/
theorem test_decode_counter_controls :
    decode [0x00000011] = .ok .cntPause ∧ decode [0x00000012] = .ok .cntResume ∧
    decode [0x00000013] = .ok .cntToggle ∧ decode [0x00000014] = .ok .cntReset ∧
    decode [0x00000015, 0x000004D2] = .ok (.cntSetCount 1234) ∧
    decode [0x00000016, 0x00000005] = .ok (.cntSetInc 5) ∧
    decode [0x01000017] = .ok (.cntSetDir 0x01) ∧
    decode [0x00000018, 0x0000002A] = .ok (.cntSetStop 42) ∧
    decode [0x00000019] = .ok .cntClearStop ∧
    decode [0x0000001A] = .ok .cntReadNorm ∧ decode [0x0000001B] = .ok .cntReadRaw :=
  ⟨rfl, rfl, rfl, rfl, rfl, rfl, rfl, rfl, rfl, rfl, rfl⟩

/-- V-E2, V-K5 and the examples of R214-R217. -/
theorem test_decode_carousel :
    decode [0x04010820, 0x000000FA, 0x000003E8, 0x34333231] =
      .ok (.carConfig 0 1 true false 250 1000 [0x31, 0x32, 0x33, 0x34]) ∧
    decode [0x02030820, 0xFA, 0x3E8, 0x00004948] = .ok (.carConfig 0 1 true true 250 1000 [0x48, 0x49]) ∧
    decode [0x00000021] = .ok .carPause ∧ decode [0x00000022] = .ok .carResume ∧
    decode [0x00000023] = .ok .carToggle ∧ decode [0x00000024] = .ok .carRestart :=
  ⟨rfl, rfl, rfl, rfl, rfl, rfl⟩

/-- V-E3 (the last byte of its text words is not read), V-B4 and the examples of R244-R247. -/
theorem test_decode_slider :
    decode [0x0F040830, 0x000000FA, 0x000003E8, 0x20422041, 0x20442043, 0x46204520, 0x00472020] =
      .ok (.sldConfig 0 1 false false true 250 1000 (codes "A B C D  E F  G")) ∧
    decode [0x02011A30, 0x0000012C, 0x00000320, 0x00004948] =
      .ok (.sldConfig 2 3 true false false 300 800 [0x48, 0x49]) ∧
    decode [0x00000031] = .ok .sldPause ∧ decode [0x00000032] = .ok .sldResume ∧
    decode [0x00000033] = .ok .sldToggle ∧ decode [0x00000034] = .ok .sldRestart :=
  ⟨rfl, rfl, rfl, rfl, rfl, rfl⟩

/-- V-E4 to V-E8, and V-E10: 65 words for N = 249. -/
theorem test_decode_rejects :
    decode [] = .error .emptyCommand ∧
    decode [0x00000000] = .error .reservedOpcode ∧ decode [0x00000099] = .error .reservedOpcode ∧
    decode [0x00000011, 0x00000000] = .error .wrongLength ∧
    decode [0x00000010, 0x00000001, 0x00000002] = .error .wrongLength ∧
    decode (0xF9010820 :: List.replicate 64 0) = .error .wrongLength ∧
    decode [0xFFFFFF11] = .ok .cntPause :=
  ⟨rfl, rfl, rfl, rfl, rfl, rfl, rfl⟩

/-- R94: a tick is an event of its own, and has no words. -/
theorem test_decode_tick : decodeEvent (.tick 7) = some (.tick 7) ∧ encode (.tick 7) = [] := by decide

/-- The opcode table's words: a one-word row, rows with payload filled up with 0 (R88), and the tick row (log entry 7). -/
theorem test_decode_table_word :
    decodeTableWord 32 0x0F000001 = some (.setupDisplay 0xF false) ∧
    decodeTableWord 32 0x00000810 = some (.cntConfig 0 1 false 0 0 0 0 0 0) ∧
    decodeTableWord 64 0x0000002A00000018 = some (.cntSetStop 42) ∧
    decodeTableWord 32 0x04010820 = some (.carConfig 0 1 true false 0 0 [0, 0, 0, 0]) ∧
    decodeTableWord 32 0x04 = none ∧
    decodeTableWord 8 3 = some (.tick 3) := by decide

theorem test_fetch_word_runs :
    (match step (State.reset.withFetchWord 32 0x00010002) with
      | .next t => t.display.dp
      | .fault _ => false
      | .refused _ => false) = true := by decide

/-! ## Assembler (R96, R97) -/

/-- V-E1, R98. -/
theorem test_assemble_display :
    (assembleLine "SETUP_DISPLAY bound=0b1111, pol=0  ; all four").map encode = some [0x0F000001] ∧
    (assembleLine "SET_DP dp=1").map encode = some [0x00010002] ∧
    (assembleLine "SHOW \"Ab-1\", rs=0, rper=1000").map encode = some [0x00000003, 0x312D6241, 0x000003E8] ∧
    (assembleLine "SHOW \"8\", rs=0, rper=0").map encode = some [0x00000003, 0x20202038, 0] := by decide

/-- R98. -/
theorem test_assemble_counter :
    (assembleLine
      "CNT_CONFIG start=9998, dir=inc, inc=1, stop=10001, stopen=1, aper=500, as=1, rper=1000, rs=0").map encode =
      some [0x00010810, 0x0000270E, 0x00000001, 0x00002711, 0x000001F4, 0x000003E8] ∧
    (assembleLine "CNT_SET_DIR dec").map encode = some [0x01000017] ∧
    assembleLine "CNT_SET_COUNT -1" = some (.cntSetCount 0xFFFFFFFF) ∧
    assembleLine "CNT_SET_PAUSE 0" = some .cntResume ∧ assembleLine "TICK 7" = some (.tick 7) := by decide

/-- V-E2, V-E3. -/
theorem test_assemble_texts :
    (assembleLine "CAR_CONFIG \"1234\", aper=250, as=1, cont=1, pad=0, rper=1000, rs=0").map encode =
      some [0x04010820, 0x000000FA, 0x000003E8, 0x34333231] ∧
    (assembleLine "SLD_CONFIG \"A B C D  E F  G\", aper=250, as=1, cont=0, pad=0, coll=1, rper=1000, rs=0").map encode =
      some [0x0F040830, 0x000000FA, 0x000003E8, 0x20422041, 0x20442043, 0x46204520, 0x00472020] := by decide

/-! ## Glyphs (V-G1 to V-G8) -/

theorem test_glyphs :
    [0x41, 0x61, 0x62, 0x30, 0x20, 0x2D, 0x3D, 0x5F, 0x21, 0x7B, 0x00, 0xC1, 0x4F].map (encodeGlyph blockParams) =
      [0x77, 0x77, 0x7C, 0x3F, 0x00, 0x40, 0x48, 0x08, 0x00, 0x00, 0x00, 0x00, 0x3F] := by decide

/-! ## Display -/

/-- V-M1. -/
theorem test_setup_display :
    (after State.reset (.cmd [0x0F000001])).map (·.display) =
      some { Display.reset with bound := 0xF, pins := { seg := 0, dp := false, dig := 0xF } } := by decide

/-- V-M4: everything de-asserted under POL = 1. -/
theorem test_setup_display_pol1 :
    (after State.reset (.cmd [0x0F010001])).map (·.display.pins) =
      some { seg := 0x7F, dp := true, dig := 0 } := by decide

/-- V-M3, first event: no pin changes. -/
theorem test_set_dp :
    (after State.reset (.cmd [0x00010002])).map (fun t => (t.display.dp, t.display.pins)) =
      some (true, Display.reset.pins) := by decide

/-- V-S2. -/
theorem test_show_static :
    (after (counting .reset) (.cmd [0x00000203, 0x34333231, 0x00000064])).map
      (fun t => (t.display.dbuf, t.binding.active, t.binding.asrc, t.trace)) =
      some (#v[0x31, 0x32, 0x33, 0x34], .static, none, [.disarm 0, .disarm 1, .arm 2 100]) := by decide

/-- V-S1: rs = 5. -/
theorem test_show_static_ignored :
    after State.reset (.cmd [0x00000503, 0x20202020, 0x0]) = some State.reset := by decide

/-- V-M8; V-M4b: under POL = 1; V-M5, second tick: the unbound position 3; V-M7, V-M6: nothing bound, no such source. -/
theorem test_tick_refresh :
    let static := { bound01 .static with asrc := none }
    let d := showing 0 #v[0x38, 0x20, 0x20, 0x20]
    (after { State.reset with binding := static, display := d } (.tick 0)).map
      (fun t => (t.display.digIdx, t.display.pins)) = some (0, { seg := 0x7F, dp := false, dig := 0b1110 }) ∧
    (after { State.reset with
        binding := static, display := { showing 1 #v[0x41, 0x62, 0x2D, 0x31] with pol := true, dp := true } }
      (.tick 0)).map (·.display.pins) = some { seg := 0x03, dp := false, dig := 0b0010 } ∧
    (after { State.reset with binding := static, display := { showing 3 #v[0x41, 0x62, 0x2D, 0x31] with bound := 0b0101 } }
      (.tick 0)).map (fun t => (t.display.digIdx, t.display.pins)) =
      some (3, { seg := 0x06, dp := false, dig := 0b1111 }) ∧
    after State.reset (.tick 0) = some State.reset ∧
    after (counting .reset) (.tick 7) = some (counting .reset) := by decide

/-! ## Animation ticks -/

/-- V-C1, second and third tick; V-C5; V-C8, first tick; V-C10. V-K1, tick 3 and tick 6 (the loop); V-K6; V-K4, tick 3.
V-L1, ticks 1 and 3; V-L2, tick 3; V-L6. -/
theorem test_tick_animation :
    ((after (counting (countedTo 9999 9999 false)) (.tick 1)).map (fun t => (t.counter, t.display.dbuf.toList)) =
       some (countedTo 10000 0 false, codes "0000") ∧
     (after (counting (countedTo 10000 0 false)) (.tick 1)).map (fun t => (t.counter, t.display.dbuf.toList)) =
       some (countedTo 10001 1 true, codes "0001") ∧
     (after (counting { Counter.reset with inc := 1, dir := .decrease }) (.tick 1)).map
       (fun t => (t.counter.cur, t.counter.norm, t.display.dbuf.toList)) = some (0xFFFFFFFF, 9999, codes "9999") ∧
     (after (counting { Counter.reset with cur := 9000, norm := 9000, inc := 15000 }) (.tick 1)).map
       (fun t => (t.counter.cur, t.counter.norm, t.display.dbuf.toList)) = some (24000, 14000, codes "4000") ∧
     (after (counting { Counter.reset with cur := 0x7FFFFFFF, norm := 0x7FFFFFFF, inc := 1 }) (.tick 1)).map
       (fun t => (t.counter.cur, t.counter.norm, t.display.dbuf.toList)) =
       some (0x80000000, 0x80002710, codes "6352")) ∧
    ((after (scrolling "1234" true false 1) (.tick 1)).map (fun t => (t.carousel.idx, t.display.dbuf.toList)) =
       some (2, codes "34 1") ∧
     (after (scrolling "1234" true false 4) (.tick 1)).map (fun t => (t.carousel.idx, t.display.dbuf.toList)) =
       some (-1, codes "1234") ∧
     (after (let s := scrolling "1234" true false (-1); s.setCarousel { s.carousel with pause := true }) (.tick 1)).map
       (fun t => (t.carousel.idx, t.display.dbuf.toList)) = some (-1, codes " 123") ∧
     (after (scrolling "HELLO" false false 1) (.tick 1)).map
       (fun t => (t.carousel.idx, t.carousel.ovf, t.display.dbuf.toList)) = some (2, true, codes "LLO ")) ∧
    ((after (paging "A B C D  E F  G" false false true 0) (.tick 1)).map
       (fun t => (t.slider.page, t.slider.pause, t.display.dbuf.toList)) = some (4, false, codes "ABCD") ∧
     (after (paging "A B C D  E F  G" false false true 8) (.tick 1)).map
       (fun t => (t.slider.page, t.slider.pause, t.display.dbuf.toList)) = some (8, true, codes "  G ") ∧
     (after (paging "A B C D  E F  G" true false true 8) (.tick 1)).map
       (fun t => (t.slider.page, t.slider.pause, t.display.dbuf.toList)) = some (0, false, codes "  G ") ∧
     (after (paging "" false false false 0) (.tick 1)).map
       (fun t => (t.slider.page, t.slider.pause, t.display.dbuf.toList)) = some (0, true, codes "    ")) :=
  ⟨by decide, by decide, by decide⟩

/-! ## Counter -/

/-- V-C1, the configure. -/
theorem test_cnt_config :
    (after State.reset (.cmd [0x00010810, 0x0000270E, 0x00000001, 0x00002711, 0x000001F4, 0x000003E8])).map
      (fun t => (t.counter, t.binding, t.display, t.trace)) =
      some (countedTo 9998 9998 false, bound01 .counter, Display.reset, [.arm 0 1000, .arm 1 500]) := by decide

/-- V-B1: equal sources; V-B2: direction code 2; V-B3: as = 5. -/
theorem test_cnt_config_ignored :
    after State.reset (.cmd [0x00000010, 0x5, 0x1, 0x0, 0x1F4, 0x3E8]) = some State.reset ∧
    after State.reset (.cmd [0x02000810, 0x5, 0x1, 0x0, 0x1F4, 0x3E8]) = some State.reset ∧
    after State.reset (.cmd [0x00002810, 0x5, 0x1, 0x0, 0x1F4, 0x3E8]) = some State.reset := by decide

/-- V-C15, V-E8. -/
theorem test_cnt_pause :
    (after State.reset (.cmd [0x00000011])).map (fun t => (t.counter.pause, t.binding.active)) = some (true, .none) ∧
    (after State.reset (.cmd [0xFFFFFF11])).map (·.counter.pause) = some true := by decide

/-- V-C3. -/
theorem test_cnt_resume :
    (after (counting (countedTo 10001 1 true)) (.cmd [0x12])).map (·.counter) = some (countedTo 10001 1 false) := by
  decide

/-- V-C13. -/
theorem test_cnt_toggle :
    (after (counting .reset) (.cmd [0x13])).map (·.counter.pause) = some true ∧
    (after (counting { Counter.reset with pause := true }) (.cmd [0x13])).map (·.counter.pause) = some false := by decide

/-- V-C3: the display buffer stays. -/
theorem test_cnt_reset :
    (after (counting (countedTo 10002 2 false)) (.cmd [0x14])).map (fun t => (t.counter, t.display)) =
      some (countedTo 9998 9998 false, Display.reset) := by decide

/-- V-C14. -/
theorem test_cnt_set_count :
    (after (counting { Counter.reset with pause := true }) (.cmd [0x15, 0x4D2])).map
      (fun t => (t.counter.start, t.counter.cur, t.counter.norm, t.counter.pause)) =
      some (1234, 1234, 1234, false) := by decide

/-- V-C15. -/
theorem test_cnt_set_inc :
    (after State.reset (.cmd [0x16, 0x5])).map (·.counter) = some { Counter.reset with inc := 5 } := by decide

/-- V-C12. -/
theorem test_cnt_set_dir :
    (after (counting .reset) (.cmd [0x02000017])).map (·.counter.dir) = some .increase ∧
    (after (counting .reset) (.cmd [0x01000017])).map (·.counter.dir) = some .decrease := by decide

/-- V-C11. -/
theorem test_cnt_set_stop :
    (after (counting { Counter.reset with cur := 42 }) (.cmd [0x18, 0x2A])).map
      (fun t => (t.counter.stop, t.counter.stopEn, t.counter.pause)) = some (42, true, true) ∧
    (after (counting { Counter.reset with cur := 42, pause := true }) (.cmd [0x18, 0x64])).map
      (fun t => (t.counter.stop, t.counter.pause)) = some (100, false) := by decide

/-- V-C14, R182: the pause stays. -/
theorem test_cnt_clear_stop :
    (after (counting (countedTo 10001 1 true)) (.cmd [0x19])).map (·.counter) =
      some { countedTo 10001 1 true with stopEn := false } := by decide

/-- V-C2. -/
theorem test_cnt_read_norm :
    (after (counting (countedTo 10001 1 true)) (.cmd [0x1A])).map (·.trace) = some [.resp 0x00000001] := by decide

/-- V-C2, V-C5. -/
theorem test_cnt_read_raw :
    (after (counting (countedTo 10001 1 true)) (.cmd [0x1B])).map (·.trace) = some [.resp 0x00002711] ∧
    (after (counting { Counter.reset with cur := -1 }) (.cmd [0x1B])).map (·.trace) = some [.resp 0xFFFFFFFF] := by
  decide

/-- V-C16. -/
theorem test_proj :
    [7, 9999, 14000, -1, -10001].map (fun v => (proj v).toList) =
      [codes "0007", codes "9999", codes "4000", codes "9999", codes "9999"] := by decide

/-! ## Carousel -/

/-- V-K1, V-E2: the configure. -/
theorem test_car_config :
    (after State.reset (.cmd [0x04010820, 0x000000FA, 0x000003E8, 0x34333231])).map
      (fun t => ((t.carousel.buf.map (·.2), t.carousel.len, t.carousel.idx), t.display.dbuf.toList, t.trace)) =
      some ((codes "1234 ", 5, -1), codes "1234", [.arm 0 1000, .arm 1 250]) := by decide

/-- V-K2, and V-E9: N = 249 is ignored. -/
theorem test_car_config_corners :
    (after State.reset (.cmd [0x01010820, 0xFA, 0x3E8, 0x41])).map (fun t => (t.carousel.len, t.display.dbuf.toList)) =
      some (2, codes "A A ") ∧
    execCarConfig 0 1 true false 250 1000 (List.replicate 249 0x41) State.reset = .next State.reset := by
  constructor
  · decide
  · simp only [execCarConfig, textFits, List.length_replicate]
    rfl

/-- V-K6, first event. -/
theorem test_car_pause :
    (after (scrolling "1234" true false (-1)) (.cmd [0x21])).map (fun t => (t.carousel.pause, t.carousel.idx)) =
      some (true, -1) := by decide

/-- V-K7: K_OVF stays. -/
theorem test_car_resume :
    (after (let s := scrolling "AB" false true 2; s.setCarousel { s.carousel with ovf := true, pause := true })
      (.cmd [0x22])).map (fun t => (t.carousel.pause, t.carousel.ovf)) = some (false, true) := by decide

/-- V-K10. -/
theorem test_car_toggle :
    (after (scrolling "1234" true false 0) (.cmd [0x23])).map (·.carousel.pause) = some true ∧
    (after (let s := scrolling "1234" true false 0; s.setCarousel { s.carousel with pause := true })
      (.cmd [0x23])).map (·.carousel.pause) = some false := by decide

/-- V-K8, first event. -/
theorem test_car_restart :
    (after (let s := scrolling "AB" false true 2; s.setCarousel { s.carousel with ovf := true, pause := true })
      (.cmd [0x24])).map (fun t => (t.carousel.idx, t.carousel.ovf, t.carousel.pause, t.display)) =
      some (-1, false, false, Display.reset) := by decide

/-! ## Slider -/

/-- V-L1, V-E3: the configure. -/
theorem test_sld_config :
    (after State.reset
      (.cmd [0x0F040830, 0x000000FA, 0x000003E8, 0x20422041, 0x20442043, 0x46204520, 0x00472020])).map
      (fun t => (t.slider.buf.map (·.2), t.slider.len, t.slider.page, t.display.dbuf.toList)) =
      some (codes "ABCD  EF  G ", 12, 0, codes "ABCD") := by decide

/-- V-B4: over an active carousel, whose slot stays; V-L4: an empty sequence. -/
theorem test_sld_config_corners :
    (after (scrolling "1234" true false 2) (.cmd [0x02011A30, 0x0000012C, 0x00000320, 0x00004948])).map
      (fun t => (t.trace, t.binding.active, t.carousel)) =
      some ([.disarm 0, .disarm 1, .arm 2 800, .arm 3 300], .slider, (scrolling "1234" true false 2).carousel) ∧
    (after State.reset (.cmd [0x01050830, 0xFA, 0x3E8, 0x00000020])).map
      (fun t => (t.slider.len, t.display.dbuf.toList)) = some (0, codes "    ") := by decide

/-- R244. -/
theorem test_sld_pause : (after State.reset (.cmd [0x31])).map (·.slider.pause) = some true := by decide

/-- P3, step 7. -/
theorem test_sld_resume :
    (after (let s := paging "A B C D  E F  G" false false true 8; s.setSlider { s.slider with pause := true })
      (.cmd [0x32])).map (fun t => (t.slider.page, t.slider.pause)) = some (8, false) := by decide

/-- V-L8. -/
theorem test_sld_toggle :
    (after (let s := paging "A B C D  E F  G" false false true 8; s.setSlider { s.slider with pause := true })
      (.cmd [0x33])).map (·.slider.pause) = some false ∧
    (after State.reset (.cmd [0x33])).map (·.slider.pause) = some true := by decide

/-- P3, step 9: the display buffer stays. -/
theorem test_sld_restart :
    (after (let s := paging "A B C D  E F  G" false false true 8; s.setSlider { s.slider with pause := true })
      (.cmd [0x34])).map (fun t => (t.slider.page, t.slider.pause, t.display)) =
      some (0, false, Display.reset) := by decide

/-! ## Reset (V-R2) -/

theorem test_reset_event :
    after (scrolling "1234" true false 2) .reset = some { State.reset with epoch := 1 } := by decide

/-! ## Witnesses: concrete states and operands that meet the hypotheses of the statements, clause by clause -/

/-- DecodeOfEncodeIsTheInstruction: the longest text. -/
theorem witness_DecodeOfEncode :
    (Instr.sldConfig 7 0 true true true 0xFFFFFFFF 1 (List.replicate 255 0xFF)).wf = true := by
  simp only [Instr.wf, List.length_replicate]
  decide

/-- DecodedInstructionsEncodeAgain and TextCharactersComeFromTheirBytes, for both text configures. -/
theorem witness_Decodes :
    (∃ i, decode [0xFFFFFF11] = .ok i) ∧
    (∃ rs asc cont pad text, decode [0x04010820, 0xFA, 0x3E8, 0x34333231] =
      .ok (.carConfig rs asc cont pad 0xFA 0x3E8 text)) ∧
    ∃ rs asc cont pad coll text, decode [0x01000030, 1, 2, 0x99999941] =
      .ok (.sldConfig rs asc cont pad coll 1 2 text) :=
  ⟨⟨_, rfl⟩, ⟨_, _, _, _, _, rfl⟩, ⟨_, _, _, _, _, _, rfl⟩⟩

/-- OnlyListedOpcodesOfTheRightLengthDecode: a row with N = 255, the last one-word row, and opcodes beside the rows. -/
theorem witness_ListedRows :
    (0xFF000020 : Word).extractLsb' 0 8 = 0x20 ∧
    (0xFF000020 :: 1 :: 2 :: List.replicate 64 0).length =
      3 + (((0xFF000020 : Word).extractLsb' 24 8).toNat + 3) / 4 ∧
    (0x00000034 : Word).extractLsb' 0 8 = 0x34 ∧
    (0x00000035 : Word).extractLsb' 0 8 = 0x35 ∧ (0x00000004 : Word).extractLsb' 0 8 = 0x04 := by
  simp only [List.length_cons, List.length_replicate]
  decide

/-- ReservedHeaderBitsHaveNoEffect: every reserved bit differs. -/
theorem witness_ReservedHeaderBits :
    (Op.ofCode ((0x00010810 : Word).extractLsb' 0 8) = some .cntConfig ∧
      (0x00010810 : Word) &&& usedHeaderBits .cntConfig = 0x00FFC810 &&& usedHeaderBits .cntConfig) ∧
    (Op.ofCode ((0x00000011 : Word).extractLsb' 0 8) = some .cntPause ∧
      (0x00000011 : Word) &&& usedHeaderBits .cntPause = 0xFFFFFF11 &&& usedHeaderBits .cntPause) := by decide

/-- PseudoCommandsExpand: four characters and five. -/
theorem witness_PseudoCommands : (codes "Ab-1").length ≤ 4 ∧ 4 < (codes "Ab-12").length := by decide

/-- StepRunsTheDecodedInstruction: nothing pending, and each kind of pending event. -/
theorem witness_Step :
    State.reset.inbox = [] ∧
    (∃ i, (State.reset.setInbox [.cmd [0x11]]).inbox = .cmd [0x11] :: [] ∧ decode [0x11] = .ok i) ∧
    (∃ r, (State.reset.setInbox [.cmd [], .reset]).inbox = .cmd [] :: [.reset] ∧ decode [] = .error r) ∧
    (State.reset.setInbox [.tick 7]).inbox = .tick 7 :: [] ∧ (State.reset.setInbox [.reset]).inbox = .reset :: [] :=
  ⟨rfl, ⟨_, rfl, rfl⟩, ⟨_, rfl, rfl⟩, rfl, rfl⟩

/-- FetchWordRunsItsInstruction: a command row and the tick row. -/
theorem witness_FetchWord :
    decodeTableWord 32 0x00000011 = some .cntPause ∧ decodeTableWord 8 7 = some (.tick 7) := by decide

/-- A legal glyph table other than the default, for statements over every legal one. -/
def plainParams : Config.Params where
  glyphTable := fun c => if Config.supported c && c != 0x20 then 1 else 0
  segActiveHigh := fun _ => true
  digActiveHigh := fun pol => !pol

/-- GlyphsAreLookedUpNormalized: a legal table, and codes at the ends of each clause. -/
theorem witness_Glyphs :
    plainParams.Legal ∧ 0x80 ≤ (0x80 : Byte).toNat ∧ (0x7F : Byte).toNat < 0x80 ∧ (0x7A : Byte).toNat < 0x80 ∧
    Config.supported ((normChar 0x00).setWidth 7) = false ∧ Config.supported ((normChar 0x7B).setWidth 7) = false :=
  ⟨⟨by decide, by decide, by decide⟩, by decide, by decide, by decide, by decide, by decide⟩

/-- RefreshShowsTheNextDigit and MultiplexerCyclesThroughThePositions: the refresh source is bound, and fires. -/
theorem witness_Refresh :
    (0 : SourceCode).toNat = (0 : Source).val ∧ (counting .reset).binding.rsrc = some 0 ∧
    0 < [(0 : SourceCode), 1, 0].count (BitVec.ofNat 3 (0 : Source).val) := by decide

/-- The decoding clauses of the control and configure statements: headers with reserved bits set. -/
theorem witness_Headers :
    (0xFFFFFF01 : Word).extractLsb' 0 8 = 0x01 ∧ (0xFFFFFF02 : Word).extractLsb' 0 8 = 0x02 ∧
    (0xFFFFFF03 : Word).extractLsb' 0 8 = 0x03 ∧ (0xFFFFFF10 : Word).extractLsb' 0 8 = 0x10 ∧
    (0xFFFFFF1B : Word).extractLsb' 0 8 = 0x1B ∧ (0xFFFFFF24 : Word).extractLsb' 0 8 = 0x24 ∧
    (0xFFFFFF34 : Word).extractLsb' 0 8 = 0x34 ∧
    ((0x05000020 : Word).extractLsb' 0 8 = 0x20 ∧
      [(1 : Word), 2].length = (((0x05000020 : Word).extractLsb' 24 8).toNat + 3) / 4) ∧
    ((0x00000030 : Word).extractLsb' 0 8 = 0x30 ∧
      ([] : List Word).length = (((0x00000030 : Word).extractLsb' 24 8).toNat + 3) / 4) := by decide

/-- ShowStaticWritesTheFourCharacters and every configure: codes 4 and 5, the two directions and the first unrecognized
one, the longest accepted text and one longer, different and equal sources. -/
theorem witness_ConfigureOperands :
    (4 < (5 : SourceCode).toNat ∧ (4 : SourceCode).toNat = (4 : Source).val) ∧
    ((0x02 : Byte) ≠ 0x00 ∧ (0x02 : Byte) ≠ 0x01) ∧
    (248 < (List.replicate 249 (0x41 : Byte)).length ∧ (List.replicate 248 (0x41 : Byte)).length ≤ 248) ∧
    ((0 : Source) ≠ 4 ∧ (3 : SourceCode) = 3) := by
  simp only [List.length_replicate]
  decide

/-- DisplayBufferHasOneOwner and OtherSlotsSurviveABehaviorSwitch: a counting tick writes the buffer and its own slot. -/
theorem witness_BufferWrite :
    ∃ t, deliver (.tick 1) (counting (countedTo 9999 9999 false)) = .next t ∧
      t.display.dbuf ≠ (counting (countedTo 9999 9999 false)).display.dbuf ∧ Event.tick 1 ≠ .reset :=
  ⟨_, rfl, by decide, by decide⟩

/-- DisplayBufferHasOneOwner, OtherSlotsSurviveABehaviorSwitch, OnlyConfiguresRebind: a configure over another behavior. -/
theorem witness_Switch :
    ∃ t, deliver (.cmd [0x04010820, 0xFA, 0x3E8, 0x34333231]) (counting .reset) = .next t ∧
      t.display.dbuf ≠ (counting .reset).display.dbuf ∧ t.binding ≠ (counting .reset).binding ∧
      t.binding.active ≠ (counting .reset).binding.active ∧ t.binding.active ≠ .counter :=
  ⟨_, rfl, by decide, by decide, by decide, by decide⟩

/-- CountingTickStepsAndProjects, CarouselTickScrolls, SliderTickPages: an animation tick of each behavior. -/
theorem witness_AnimationTick :
    (1 : SourceCode).toNat = (1 : Source).val ∧
    ((counting .reset).binding.rsrc ≠ some 1 ∧ (counting .reset).binding.asrc = some 1 ∧
      (counting .reset).binding.active = .counter) ∧
    ((scrolling "1234" true false 0).binding.rsrc ≠ some 1 ∧ (scrolling "1234" true false 0).binding.asrc = some 1 ∧
      (scrolling "1234" true false 0).binding.active = .carousel ∧ (scrolling "1234" true false 0).carousel.len ≠ 0 ∧
      ((scrolling "1234" true false 0).setCarousel .reset).carousel.len = 0) ∧
    ((paging "AB" true false false 0).binding.rsrc ≠ some 1 ∧ (paging "AB" true false false 0).binding.asrc = some 1 ∧
      (paging "AB" true false false 0).binding.active = .slider) := by decide

/-- CounterSetIncrementAndDirection: the first unrecognized code and the last. -/
theorem witness_Direction : 1 < (0x02 : Byte).toNat ∧ 1 < (0xFF : Byte).toNat := by decide

/-- SmallIncrementsKeepTheCountInRange: both directions, the largest increment, at the ends of the range. -/
theorem witness_SmallIncrements :
    let up : Counter := { Counter.reset with cur := 19999, norm := 9999, inc := 10000 }
    let down : Counter := { Counter.reset with inc := 10000, dir := .decrease }
    (0 ≤ up.norm.toInt ∧ up.norm.toInt ≤ 9999 ∧ up.inc.toNat ≤ 10000 ∧ (up.cur.toInt - up.norm.toInt) % 10000 = 0 ∧
      -2 ^ 31 ≤ up.cur.toInt + up.inc.toNat ∧ up.cur.toInt + up.inc.toNat ≤ 2 ^ 31 - 1) ∧
    (0 ≤ down.norm.toInt ∧ down.norm.toInt ≤ 9999 ∧ down.inc.toNat ≤ 10000 ∧
      (down.cur.toInt - down.norm.toInt) % 10000 = 0 ∧ -2 ^ 31 ≤ down.cur.toInt + -(down.inc.toNat : Int) ∧
      down.cur.toInt + -(down.inc.toNat : Int) ≤ 2 ^ 31 - 1) := by decide

/-- LargeIncrementsStayUnderNormalized (V-C8) and DecreasingIsIncreasingByTheComplement. -/
theorem witness_CounterSlots :
    (let c : Counter := { Counter.reset with norm := 9000, inc := 15000 };
      c.pause = false ∧ c.dir = .increase ∧ c.norm = 9000 ∧ c.inc = 15000) ∧
    ({ Counter.reset with dir := .decrease, inc := 1 } : Counter).dir = .decrease := by decide

/-- PausedCounterStaysUntilResumed: a paused counter, and an event that clears the pause. -/
theorem witness_Paused :
    (counting (countedTo 10001 1 true)).counter.pause = true ∧
    ∃ t, deliver (.cmd [0x12]) (counting (countedTo 10001 1 true)) = .next t ∧ t.counter.pause = false :=
  ⟨rfl, _, rfl, rfl⟩

/-- ContinuousCarouselWindows, OneShotCarouselWindows, SliderPages: distinct sources, a text of 0 and one of 248
characters, one firing and several. -/
theorem witness_TickRuns :
    (4 : SourceCode).toNat < 5 ∧ (1 : SourceCode).toNat < 5 ∧ (4 : SourceCode) ≠ 1 ∧
    ([] : List Byte).length ≤ 248 ∧ (List.replicate 248 (0x41 : Byte)).length ≤ 248 ∧
    0 < [(1 : SourceCode)].count 1 ∧ 0 < [(1 : SourceCode), 4, 7, 1].count 1 := by
  simp only [List.length_replicate]
  decide

/-- CollapseDropsOnlyIsolatedSpaces: a text with spaces, none of them isolated. -/
theorem witness_NoIsolatedSpace :
    ∀ i, i < (codes "A  B").length → isolatedSpace (codes "A  B") i = false := by decide

/-- OneShotSliderEndsOnItsLastPage (V-L1). -/
theorem witness_OneShotEnd :
    let s := paging "A B C D  E F  G" false false true 8
    let t := s.setSlider { s.slider with pause := true }
    (1 : SourceCode).toNat = (1 : Source).val ∧ t.binding.rsrc ≠ some 1 ∧ t.binding.asrc = some 1 ∧
    t.binding.active = .slider ∧ t.slider.cont = false ∧ t.slider.pause = true ∧
    t.slider.page.toNat + 4 = t.slider.len.toNat := by decide

/-- ConflictingSourcesAreIgnored: each of its three conditions alone. -/
theorem witness_Conflicts :
    (3 : SourceCode) = 3 ∧ 4 < (5 : SourceCode).toNat ∧ 4 < (7 : SourceCode).toNat := by decide

/-- UnboundTicksAreIgnored: a code that names no source, a source not bound, and an animation source while the static
behavior is active (in a state no run reaches). -/
theorem witness_UnboundTicks :
    4 < (5 : SourceCode).toNat ∧
    ((4 : SourceCode).toNat = (4 : Source).val ∧ (counting .reset).binding.rsrc ≠ some 4 ∧
      (counting .reset).binding.asrc ≠ some 4) ∧
    (let b := bound01 .static;
      (1 : SourceCode).toNat = (1 : Source).val ∧ b.rsrc ≠ some 1 ∧ b.asrc = some 1 ∧ b.active.animated = false) := by
  decide

/-- OnlyReadsAndConfiguresEmit: a read, a configure, and an event that emits nothing. -/
theorem witness_Emits :
    (∃ t, deliver (.cmd [0x1A]) (counting .reset) = .next t ∧ t.trace ≠ []) ∧
    (∃ t, deliver (.cmd [0x00000203, 0x34333231, 0x64]) (counting .reset) = .next t ∧ t.trace ≠ []) ∧
    ∃ t, deliver .reset (counting .reset) = .next t ∧ t.trace = [] :=
  ⟨⟨_, rfl, by decide⟩, ⟨_, rfl, by decide⟩, ⟨_, rfl, rfl⟩⟩

/-- InstructionsIgnorePendingEvents: an instruction that answers next. -/
theorem witness_Exec : ∃ t, exec .cntToggle (counting .reset) = .next t := ⟨_, rfl⟩

/-- PinLevelsHoldBetweenWrites: each of its three causes changes a pin. -/
theorem witness_PinWrites :
    (∃ t, deliver (.cmd [0x0F010001]) (counting .reset) = .next t ∧ t.display.pins ≠ (counting .reset).display.pins) ∧
    (∃ t, deliver (.tick 0) { counting .reset with display := showing 0 #v[0x38, 0x20, 0x20, 0x20] } = .next t ∧
      t.display.pins ≠ (showing 0 #v[0x38, 0x20, 0x20, 0x20]).pins) ∧
    ∃ t, deliver .reset { counting .reset with display := { Display.reset with pins := { seg := 1, dp := true, dig := 0 } } } =
      .next t ∧ t.display.pins ≠ { seg := 1, dp := true, dig := 0 } :=
  ⟨⟨_, rfl, by decide⟩, ⟨_, rfl, by decide⟩, ⟨_, rfl, by decide⟩⟩

/-- EveryStepKeepsTheInvariant: a carousel in motion under a lit display meets the invariant, and steps. -/
theorem witness_Inv :
    Inv ({ scrolling "1234" true false 2 with
      display := { showing 1 #v[0x33, 0x34, 0x20, 0x31] with
        digIdx := 0, pins := { seg := 0x4F, dp := false, dig := 0b1110 } } }.setInbox [.tick 1]) ∧
    ∃ t, step ({ scrolling "1234" true false 2 with
      display := { showing 1 #v[0x33, 0x34, 0x20, 0x31] with
        digIdx := 0, pins := { seg := 0x4F, dp := false, dig := 0b1110 } } }.setInbox [.tick 1]) = .next t :=
  ⟨⟨⟨by decide, rfl, rfl⟩, by decide,
    ⟨by decide, by decide, by decide, by decide, by decide, by decide, by decide, by decide⟩,
    ⟨by decide, by decide, by decide, by decide, by decide⟩, by decide⟩, _, rfl⟩

/-- AtMostOneBoundDigitIsEverEnabled: a state that a run reaches, other than reset. -/
theorem witness_Reachable : ∃ s : State, Reachable s ∧ s.display.bound = 0xF :=
  ⟨_, .step _ _ (.reset [.cmd [0x0F000001]]) rfl, rfl⟩

/-- StaleBufferEntriesAreNeverObserved: two states that agree below K_LEN = 5 and differ at entry 5, and their steps. -/
theorem witness_StaleEntries :
    let s := (scrolling "1234" true false 0).setInbox [.tick 1]
    let t := s.setCarousel { s.carousel with buf := s.carousel.buf.write 5 0x41 }
    SameBelowLengths s t ∧ s.carousel.buf ≠ t.carousel.buf ∧ (∃ s', step s = .next s') ∧ ∃ t', step t = .next t' := by
  refine ⟨⟨rfl, rfl, rfl, rfl, fun j hj => ?_, rfl, fun _ _ => rfl, rfl, rfl⟩, by decide, ⟨_, rfl⟩, ⟨_, rfl⟩⟩
  have h : j < 5 := hj
  simp only [State.setCarousel, Memory.entry, Memory.read?_write]
  rw [if_neg (by omega)]

end Sys2Proof.Machine.Tests
end

section
/-! SUPPORT. The statements about one step and one instruction: which event a step delivers, what a delivered event
runs, and that both always answer a next state (00_scope.md R14, R92, R94, R290, R320); and the pin levels under R9's
default polarity. -/

namespace Sys2Proof.Machine

/-! ## What a step delivers and what an event runs -/

theorem step_of_inbox_eq_nil {s : State} (h : s.inbox = []) : step s = .next s := by
  rcases step_cases s with ⟨-, hidle⟩ | ⟨e, rest, hcons, -⟩
  · exact hidle
  · simp [h] at hcons

theorem step_of_inbox_eq_cons {s : State} {e : Event} {rest : List Event} (h : s.inbox = e :: rest) :
    step s = deliver e (s.setInbox rest) := by
  have hs : s = s.setInbox (e :: rest) := by rw [← h]; rfl
  rw [hs]
  exact step_setInbox_cons s e rest

theorem deliver_cmd_of_decode_ok {ws : List Word} {i : Instr} (h : decode ws = .ok i) (s : State) :
    deliver (.cmd ws) s = exec i s := by
  simp [deliver, h]

/-- A command that does not decode is ignored (R92). -/
theorem deliver_cmd_of_decode_error {ws : List Word} {r : DecodeReject} (h : decode ws = .error r) (s : State) :
    deliver (.cmd ws) s = .next s := by
  simp [deliver, h, ignore]

/-- An event that carries an instruction runs it, whichever port it came by (R92, R94). -/
theorem deliver_of_decodeEvent {e : Event} {i : Instr} (h : decodeEvent e = some i) (s : State) :
    deliver e s = exec i s := by
  cases e with
  | cmd ws =>
    cases hd : decode ws with
    | ok j =>
      obtain rfl : j = i := by simpa [decodeEvent, hd, Except.toOption] using h
      exact deliver_cmd_of_decode_ok hd s
    | error r => simp [decodeEvent, hd, Except.toOption] at h
  | tick code =>
    obtain rfl : Instr.tick code = i := Option.some.inj h
    rfl
  | reset => cases h

/-- Settles O8: each clause is the rule of its kind of event, in the state with the event taken out. -/
theorem stepRunsTheDecodedInstruction : Obligations.StepRunsTheDecodedInstruction := by
  refine fun s => ⟨step_of_inbox_eq_nil, fun e rest hs => ?_⟩
  rw [step_of_inbox_eq_cons hs]
  refine ⟨?command, ?rejected, ?tick, ?reset⟩
  case command =>
    rintro ws i rfl hd
    exact deliver_cmd_of_decode_ok hd _
  case rejected =>
    rintro ws r rfl hd
    exact deliver_cmd_of_decode_error hd _
  case tick =>
    rintro code rfl
    rfl
  case reset =>
    rintro rfl
    rfl

/-- Settles O9: the word's event is the first of the inbox, and it carries the instruction. -/
theorem fetchWordRunsItsInstruction : Obligations.FetchWordRunsItsInstruction := by
  intro s nbits w i h
  calc step (s.withFetchWord nbits w)
      = deliver (tableEvent nbits w) s := step_setInbox_cons s (tableEvent nbits w) s.inbox
    _ = exec i s := deliver_of_decodeEvent h s

/-! ## No fault and no refusal (R290) -/

theorem exec_total (i : Instr) (s : State) : ∃ t, exec i s = .next t := by
  by_cases hi : ∃ code, i = .tick code
  · obtain ⟨code, rfl⟩ := hi
    exact ⟨_, rfl⟩
  · obtain ⟨t, ht, -⟩ := exec_commandStep i (not_exists.1 hi) s
    exact ⟨t, ht⟩

theorem deliver_total (e : Event) (s : State) : ∃ t, deliver e s = .next t := by
  cases e with
  | cmd ws =>
    cases hd : decode ws with
    | ok i => exact deliver_cmd_of_decode_ok hd s ▸ exec_total i s
    | error r => exact ⟨s, deliver_cmd_of_decode_error hd s⟩
  | tick code => exact exec_total (.tick code) s
  | reset => exact ⟨_, rfl⟩

theorem step_total (s : State) : ∃ t, step s = .next t := by
  rcases step_cases s with ⟨-, hidle⟩ | ⟨e, rest, -, hstep⟩
  · exact ⟨s, hidle⟩
  · exact hstep ▸ deliver_total e (s.setInbox rest)

/-- Settles O50: no instruction faults or is refused, so no event and no step does. -/
theorem everyStepAnswersANextState : Obligations.EveryStepAnswersANextState := ⟨step_total, exec_total⟩

/-! ## The default polarity (R9, R144) -/

@[simp] theorem blockParams_segActiveHigh (pol : Bool) : blockParams.segActiveHigh pol = !pol := rfl

@[simp] theorem blockParams_digActiveHigh (pol : Bool) : blockParams.digActiveHigh pol = pol := rfl

/-- Settles O15: the two polarity functions are opposite, so POL inverts either the digits or the segments and the
point. -/
theorem pinLevelsFollowThePolarity : Obligations.PinLevelsFollowThePolarity := by
  intro seg dp dig
  constructor
  · simp [driveLevels]
  · simp [driveLevels]

end Sys2Proof.Machine
end

section
/-! SUPPORT. The invariant of the block (10_state.md R29-R49, R62, R63, R75; 41_digit_mux.md R142): it holds at reset,
one lemma per group says which updates keep it, every step keeps it, and so every run does. -/

namespace Sys2Proof.Machine

/-! ## The groups of the invariant -/

/-- The clause of `Inv` about the digit enables (R142, R149). -/
def Display.DigitsOk (d : Display) : Prop :=
  ∀ k, digitEnabled blockParams d k = true → k = d.digIdx ∧ d.bound.getLsbD k.val = true

/-- Pins driven for the position `digIdx` under the current polarity (R140, R143). -/
theorem Display.digitsOk_of_digitEnable {d : Display} {seg : BitVec 7} {dp : Bool}
    (h : d.pins = driveLevels blockParams d.pol seg dp (digitEnable d.bound d.digIdx)) : d.DigitsOk := by
  intro k hk
  rw [digitEnabled_driven h, getLsbD_digitEnable] at hk
  obtain ⟨rfl, hbound⟩ := hk
  exact ⟨rfl, hbound⟩

/-- Pins driven with every digit off (R150). -/
theorem Display.digitsOk_of_off {d : Display} {seg : BitVec 7} {dp : Bool}
    (h : d.pins = driveLevels blockParams d.pol seg dp 0) : d.DigitsOk := by
  intro k hk
  simp [digitEnabled_driven h] at hk

theorem carLast_nonneg (c : Carousel) : 0 ≤ carLast c := Int.le_max_right _ _

/-- A carousel at index -1 with K_OVF clear, as a reset, a configure and a restart leave it (R54, R211, R217). -/
theorem Carousel.ok_of_rewound {c : Carousel} (hwf : Memory.wf c.buf = true)
    (hwithin : Memory.within Config.kBufSize c.buf = true) (hfilled : Memory.filled c.len.toNat c.buf = true)
    (hlen : c.len.toNat ≤ 252) (hidx : c.idx = -1) (hovf : c.ovf = false) : c.Ok := by
  have hidx : s16 c.idx = -1 := hidx ▸ s16_neg_one
  have hlast := carLast_nonneg c
  refine ⟨hwf, hwithin, hfilled, hlen, hidx.ge, fun _ => ?_, fun _ => ?_, ?_⟩
  · omega
  · omega
  · have hne : s16 c.idx ≠ carLast c := by omega
    simp [hovf, hne]

theorem Carousel.Ok.setPause {c : Carousel} (h : c.Ok) (pause : Bool) : Carousel.Ok { c with pause := pause } :=
  ⟨h.bufWf, h.bufWithin, h.bufFilled, h.lenLe, h.idxGe, h.idxCont, h.idxOnce, h.ovfIff⟩

theorem Carousel.Ok.restart {c : Carousel} (h : c.Ok) :
    Carousel.Ok { c with ovf := false, idx := -1, pause := false } :=
  Carousel.ok_of_rewound h.bufWf h.bufWithin h.bufFilled h.lenLe rfl rfl

theorem carConfigured_len_toNat (c : Carousel) {text : List Byte} (cont pad : Bool) (hl : text.length ≤ 248) :
    (carConfigured c text cont pad).len.toNat = (carBuild text cont pad).2 := by
  obtain ⟨-, -, hle, -⟩ := carBuild_length text cont pad
  show (BitVec.ofNat 16 (carBuild text cont pad).2).toNat = _
  rw [BitVec.toNat_ofNat, Nat.mod_eq_of_lt (by omega)]

theorem carConfigured_len_ne_zero (c : Carousel) {text : List Byte} (cont pad : Bool) (hl : text.length ≤ 248) :
    (carConfigured c text cont pad).len ≠ 0 := by
  intro h
  obtain ⟨-, -, -, hpos⟩ := carBuild_length text cont pad
  have hlen := carConfigured_len_toNat c cont pad hl
  have hzero : (carBuild text cont pad).2 = 0 := by
    rw [← hlen, h]
    rfl
  omega

theorem Carousel.Ok.configured {c : Carousel} (h : c.Ok) {text : List Byte} (cont pad : Bool)
    (hl : text.length ≤ 248) : (carConfigured c text cont pad).Ok := by
  obtain ⟨hcover, hfits, hle, -⟩ := carBuild_length text cont pad
  have hlen := carConfigured_len_toNat c cont pad hl
  have hsize : 0 + (carBuild text cont pad).1.length ≤ Config.kBufSize := by
    rw [Config.kBufSize]
    omega
  exact Carousel.ok_of_rewound (Memory.wf_writeFrom _ _ _ h.bufWf) (Memory.within_writeFrom _ _ _ _ hsize h.bufWithin)
    (Memory.filled_writeFrom _ _ _ (by omega)) (by omega) rfl rfl

/-- K_OVF of a one-shot carousel marks the terminal index (R45). -/
theorem Carousel.Ok.ovf_iff {c : Carousel} (h : c.Ok) (hc : c.cont = false) :
    c.ovf = true ↔ s16 c.idx = carLast c := by
  simp [h.ovfIff, hc]

theorem Carousel.Ok.ovf_eq_false {c : Carousel} (h : c.Ok) (hc : c.cont = true) : c.ovf = false := by
  simp [h.ovfIff, hc]

/-- The bounds of R42 keep the index clear of its 16-bit limit (log entry 8). -/
theorem Carousel.Ok.s16_idx_add_one {c : Carousel} (h : c.Ok) : s16 (c.idx + 1) = s16 c.idx + 1 := by
  have hlen := h.lenLe
  have hlast : carLast c ≤ 252 := by
    unfold carLast
    omega
  apply s16_add_one
  cases hc : c.cont with
  | true =>
    have := h.idxCont hc
    omega
  | false =>
    have := h.idxOnce hc
    omega

/-- The advance of a tick moves the index on, off the terminal index only, or leaves it (R212). -/
theorem carAdvance_cases (c : Carousel) : (c.ovf = false ∧ carAdvance c = c.idx + 1) ∨ carAdvance c = c.idx := by
  unfold carAdvance
  split
  · next hmove =>
    simp only [Bool.and_eq_true, Bool.not_eq_true'] at hmove
    exact .inl ⟨hmove.1, rfl⟩
  · exact .inr rfl

/-- The index after the advance of a tick: within the bounds of R212, and at the terminal index if it was there. -/
theorem Carousel.Ok.advance {c : Carousel} (h : c.Ok) :
    -1 ≤ s16 (carAdvance c) ∧ (c.cont = true → s16 (carAdvance c) ≤ c.len.toNat) ∧
    (c.cont = false → s16 (carAdvance c) ≤ carLast c ∧ (c.ovf = true → s16 (carAdvance c) = carLast c)) := by
  have hge := h.idxGe
  rcases carAdvance_cases c with ⟨hovf, hadv⟩ | hadv
  · rw [hadv, h.s16_idx_add_one]
    refine ⟨by omega, fun hc => h.idxCont hc, fun hc => ⟨?_, by simp [hovf]⟩⟩
    have hbelow : s16 c.idx ≠ carLast c := by simp [← h.ovf_iff hc, hovf]
    exact lt_of_le_of_ne (h.idxOnce hc) hbelow
  · rw [hadv]
    exact ⟨hge, fun hc => (h.idxCont hc).le, fun hc => ⟨h.idxOnce hc, (h.ovf_iff hc).1⟩⟩

/-- A tick of a continuous carousel: the loop check (R212). -/
theorem carouselTick_of_cont {c : Carousel} (hc : c.cont = true) :
    carouselTick c =
      { c with idx := if (c.len.toNat : Int) ≤ s16 (carAdvance c) then -1 else carAdvance c } := by
  simp [carouselTick, carouselLoops, carouselTerminal, hc]

/-- A tick of a one-shot carousel: the terminal check (R212). -/
theorem carouselTick_of_once {c : Carousel} (hc : c.cont = false) :
    carouselTick c =
      { c with idx := carAdvance c, ovf := c.ovf || decide (carLast c ≤ s16 (carAdvance c)) } := by
  simp [carouselTick, carouselLoops, carouselTerminal, carLast, hc]

theorem Carousel.Ok.tick {c : Carousel} (h : c.Ok) : (carouselTick c).Ok := by
  obtain ⟨hge, hcont, honce⟩ := h.advance
  cases hc : c.cont with
  | true =>
    have hovf := h.ovf_eq_false hc
    rw [carouselTick_of_cont hc]
    split
    · exact Carousel.ok_of_rewound h.bufWf h.bufWithin h.bufFilled h.lenLe rfl hovf
    · next hbelow =>
      exact ⟨h.bufWf, h.bufWithin, h.bufFilled, h.lenLe, hge, fun _ => not_le.1 hbelow, by simp [hc],
        by simp [hc, hovf]⟩
  | false =>
    obtain ⟨hle, hstays⟩ := honce hc
    rw [carouselTick_of_once hc]
    refine ⟨h.bufWf, h.bufWithin, h.bufFilled, h.lenLe, hge, by simp [hc], fun _ => hle, ?_⟩
    show (c.ovf || decide (carLast c ≤ s16 (carAdvance c))) = (!c.cont && decide (s16 (carAdvance c) = carLast c))
    cases hovf : c.ovf with
    | true => simp [hc, hstays hovf]
    | false => simp [hc, le_antisymm_iff, hle]

theorem Slider.ok_of_firstPage {l : Slider} (hwf : Memory.wf l.buf = true)
    (hwithin : Memory.within Config.sBufSize l.buf = true) (hfilled : Memory.filled l.len.toNat l.buf = true)
    (hlen : l.len.toNat ≤ 252 ∧ l.len.toNat % 4 = 0) (hpage : l.page = 0) : l.Ok :=
  ⟨hwf, hwithin, hfilled, hlen, by simp [hpage]⟩

theorem Slider.Ok.setPause {l : Slider} (h : l.Ok) (pause : Bool) : Slider.Ok { l with pause := pause } :=
  ⟨h.bufWf, h.bufWithin, h.bufFilled, h.lenLe, h.pageOk⟩

theorem Slider.Ok.restart {l : Slider} (h : l.Ok) (pause : Bool) : Slider.Ok { l with page := 0, pause := pause } :=
  Slider.ok_of_firstPage h.bufWf h.bufWithin h.bufFilled h.lenLe rfl

theorem sldConfigured_len_toNat (l : Slider) {text : List Byte} (cont pad coll : Bool) (hl : text.length ≤ 248) :
    (sldConfigured l text cont pad coll).len.toNat = (sldBuild text pad coll).length := by
  obtain ⟨-, hle⟩ := sldBuild_length text pad coll
  show (BitVec.ofNat 16 (sldBuild text pad coll).length).toNat = _
  rw [BitVec.toNat_ofNat, Nat.mod_eq_of_lt (by omega)]

theorem Slider.Ok.configured {l : Slider} (h : l.Ok) {text : List Byte} (cont pad coll : Bool)
    (hl : text.length ≤ 248) : (sldConfigured l text cont pad coll).Ok := by
  obtain ⟨hpages, hle⟩ := sldBuild_length text pad coll
  have hlen := sldConfigured_len_toNat l cont pad coll hl
  have hsize : 0 + (sldBuild text pad coll).length ≤ Config.sBufSize := by
    rw [Config.sBufSize]
    omega
  exact Slider.ok_of_firstPage (Memory.wf_writeFrom _ _ _ h.bufWf) (Memory.within_writeFrom _ _ _ _ hsize h.bufWithin)
    (Memory.filled_writeFrom _ _ _ (by omega)) (by omega) rfl

theorem Slider.Ok.tick {l : Slider} (h : l.Ok) : (sliderTick l).Ok := by
  unfold sliderTick
  dsimp only
  split
  · exact h
  split
  · split
    · exact h.restart l.pause
    · exact h.setPause true
  · next hpast =>
    obtain ⟨hlen, -⟩ := h.lenLe
    obtain ⟨hpage, -⟩ := h.pageOk
    simp only [pagePastEnd, decide_eq_true_eq] at hpast
    refine ⟨h.bufWf, h.bufWithin, h.bufFilled, h.lenLe, ?_⟩
    have hnext : (BitVec.ofNat 16 (l.page.toNat + 4)).toNat = l.page.toNat + 4 := by
      rw [BitVec.toNat_ofNat, Nat.mod_eq_of_lt (by omega)]
    dsimp only
    rw [hnext]
    omega

/-! ## Updates of the state that keep the invariant -/

section Updates

variable {s : State}

theorem Inv.of_groups_eq {t : State} (h : Inv s) (hd : t.display = s.display) (hb : t.binding = s.binding)
    (hk : t.carousel = s.carousel) (hl : t.slider = s.slider) : Inv t :=
  ⟨hb ▸ h.binding, hb ▸ hk ▸ h.carouselActive, hk ▸ h.carousel, hl ▸ h.slider, hd ▸ h.digits⟩

theorem Inv.setDisplay (h : Inv s) {d : Display} (hd : d.DigitsOk) : Inv (s.setDisplay d) :=
  ⟨h.binding, h.carouselActive, h.carousel, h.slider, hd⟩

theorem Inv.setDbuf (h : Inv s) (w : Window) : Inv (s.setDbuf w) := h.setDisplay h.digits

theorem Inv.setCounter (h : Inv s) (c : Counter) : Inv (s.setCounter c) := h.of_groups_eq rfl rfl rfl rfl

theorem Inv.setCarousel (h : Inv s) {c : Carousel} (hc : c.Ok) (hlen : s.binding.active = .carousel → c.len ≠ 0) :
    Inv (s.setCarousel c) :=
  ⟨h.binding, hlen, hc, h.slider, h.digits⟩

theorem Inv.setSlider (h : Inv s) {l : Slider} (hl : l.Ok) : Inv (s.setSlider l) :=
  ⟨h.binding, h.carouselActive, h.carousel, hl, h.digits⟩

/-- A configure binds distinct sources, as its behavior needs them (R272, R273). -/
theorem Inv.rebind (h : Inv s) {b : Behavior} {r : Source} {anim : Option Source} (rp ap : Word)
    (hdiffer : ∀ a, anim = some a → a ≠ r) (hanim : anim.isSome = b.animated) (hactive : b ≠ .none)
    (hlen : b = .carousel → s.carousel.len ≠ 0) : Inv (bindSources r rp anim ap (s.setActive b)) := by
  refine ⟨⟨fun a ha => ?_, hanim, ?_⟩, hlen, h.carousel, h.slider, h.digits⟩
  · simpa [eq_comm] using hdiffer a ha
  · simpa using hactive

end Updates

/-! ## Steps -/

/-- Nothing is bound, the buffers are empty with both indices at rest, and no digit is driven (R54). -/
theorem Inv.reset : Inv State.reset :=
  ⟨⟨by decide, rfl, rfl⟩, by decide, Carousel.ok_of_rewound rfl rfl rfl (by decide) rfl rfl,
    Slider.ok_of_firstPage rfl rfl rfl (by decide) rfl, Display.digitsOk_of_off (seg := 0) (dp := false) rfl⟩

/-- Settles O56: no clause of the invariant looks at the pending events. -/
theorem invariantHoldsAtReset : Obligations.InvariantHoldsAtReset :=
  fun _ => Inv.reset.of_groups_eq rfl rfl rfl rfl

theorem Inv.animationTick {s : State} (h : Inv s) : Inv (animationTick s) := by
  rcases animationTick_cases s with ⟨-, ht⟩ | ⟨-, ht⟩ | ⟨-, ht⟩ | ⟨-, ht⟩ <;> rw [ht]
  · exact h
  · exact (h.setCounter _).setDbuf _
  · rcases carTick_cases s with ⟨-, hc⟩ | ⟨hlen, hc⟩ <;> rw [hc]
    · exact h
    · exact (h.setDbuf _).setCarousel h.carousel.tick fun _ => hlen
  · exact (h.setDbuf _).setSlider h.slider.tick

theorem Inv.tickWith {s : State} (h : Inv s) (code : SourceCode) : Inv (tickWith blockParams code s) := by
  rcases tickWith_cases blockParams code s with ⟨_, -, -, ht⟩ | ⟨_, -, -, -, ht⟩ | ⟨-, ht⟩ <;> rw [ht]
  · exact h.setDisplay (Display.digitsOk_of_digitEnable rfl)
  · exact h.animationTick
  · exact h

theorem CommandStep.inv {s t : State} {i : Instr} (hstep : CommandStep s i t) (h : Inv s) : Inv t := by
  cases hstep with
  | ignored => exact h
  | setupDisplay bound pol => exact h.setDisplay (Display.digitsOk_of_off rfl)
  | setDp dp => exact h.setDisplay h.digits
  | counter | readNorm | readRaw => exact h.of_groups_eq rfl rfl rfl rfl
  | carouselPause => exact h.setCarousel (h.carousel.setPause _) h.carouselActive
  | carouselRestart => exact h.setCarousel h.carousel.restart h.carouselActive
  | sliderPause => exact h.setSlider (h.slider.setPause _)
  | sliderRestart => exact h.setSlider (h.slider.restart _)
  | showStatic _ chars _ r _ =>
    exact (h.setDbuf chars).rebind _ _ (by simp) rfl (by decide) (by simp)
  | cntConfig _ _ _ _ _ _ _ _ _ r a c _ _ differ =>
    exact (h.setCounter c).rebind _ _ (by simp [differ]) rfl (by decide) (by simp)
  | carConfig _ _ cont pad _ _ text r a _ _ differ fits =>
    have hlen := carConfigured_len_ne_zero s.carousel cont pad fits
    have hslot := h.setCarousel (h.carousel.configured cont pad fits) fun _ => hlen
    exact (hslot.setDbuf _).rebind _ _ (by simp [differ]) rfl (by decide) fun _ => hlen
  | sldConfig _ _ cont pad coll _ _ text r a _ _ differ fits =>
    have hslot := h.setSlider (h.slider.configured cont pad coll fits)
    exact (hslot.setDbuf _).rebind _ _ (by simp [differ]) rfl (by decide) (by simp)

theorem Inv.deliver {s t : State} {e : Event} (h : Inv s) (hd : deliver e s = .next t) : Inv t := by
  rcases deliver_cases hd with ⟨-, rfl⟩ | ⟨code, -, rfl⟩ | rfl | ⟨_, _, -, -, -, -, hstep⟩
  · exact Inv.reset.of_groups_eq rfl rfl rfl rfl
  · exact h.tickWith code
  · exact h
  · exact hstep.inv h

/-- Settles O57: an idle step changes nothing, and every event keeps the invariant, which no pending event enters. -/
theorem everyStepKeepsTheInvariant : Obligations.EveryStepKeepsTheInvariant := by
  intro s t h hst
  rcases step_cases s with ⟨-, hidle⟩ | ⟨e, rest, -, hdeliver⟩
  · obtain rfl : s = t := Host.Outcome.next.inj (hidle.symm.trans hst)
    exact h
  · have hrest : Inv (s.setInbox rest) := h.of_groups_eq rfl rfl rfl rfl
    exact hrest.deliver (hdeliver.symm.trans hst)

theorem Reachable.inv {s : State} (h : Reachable s) : Inv s := by
  induction h with
  | reset events => exact invariantHoldsAtReset events
  | step s t _ hst ih => exact everyStepKeepsTheInvariant s t ih hst

/-- Settles O58: two clauses of the invariant, which every run keeps. -/
theorem atMostOneBoundDigitIsEverEnabled : Obligations.AtMostOneBoundDigitIsEverEnabled := by
  intro s hs
  obtain ⟨hbinding, -, -, -, hdigits⟩ := hs.inv
  refine ⟨hbinding.sourcesDiffer, fun k l hk hl => ?_, fun k hk => (hdigits k hk).2⟩
  exact (hdigits k hk).1.trans (hdigits l hl).1.symm

end Sys2Proof.Machine
end

section
/-! SUPPORT. Which groups of the state an event can change: at most one behavior slot (R21, R277), and the bindings only
by a reset or a configure (R29-R31); that no instruction looks at the pending events (R51, R70); and the reset values
(R54). -/

namespace Sys2Proof.Machine

/-! ## The slots -/

/-- Of the three behavior slots, at most that of `b` differs between the two states. -/
def OnlySlotOf (b : Behavior) (s t : State) : Prop :=
  (b ≠ .counter → t.counter = s.counter) ∧ (b ≠ .carousel → t.carousel = s.carousel) ∧
    (b ≠ .slider → t.slider = s.slider)

theorem OnlySlotOf.slots {b : Behavior} {s t : State} (h : OnlySlotOf b s t) :
    t.carousel = s.carousel ∧ t.slider = s.slider ∨ t.counter = s.counter ∧ t.slider = s.slider ∨
      t.counter = s.counter ∧ t.carousel = s.carousel := by
  obtain ⟨hcounter, hcarousel, hslider⟩ := h
  cases b with
  | none | static | counter => exact .inl ⟨hcarousel (by decide), hslider (by decide)⟩
  | carousel => exact .inr (.inl ⟨hcounter (by decide), hslider (by decide)⟩)
  | slider => exact .inr (.inr ⟨hcounter (by decide), hcarousel (by decide)⟩)

/-- A tick writes at most the active behavior's slot (R275). -/
theorem tickWith_onlySlotOf (P : Config.Params) (code : SourceCode) (s : State) :
    OnlySlotOf s.binding.active s (tickWith P code s) := by
  rcases tickWith_cases P code s with ⟨_, -, -, h⟩ | ⟨_, -, -, -, h⟩ | ⟨-, h⟩ <;> rw [h]
  · exact ⟨fun _ => rfl, fun _ => rfl, fun _ => rfl⟩
  · obtain ⟨-, -, -, -, -, hslots⟩ := animationTick_frame s
    exact hslots
  · exact ⟨fun _ => rfl, fun _ => rfl, fun _ => rfl⟩

/-- A command writes at most one slot, and a configure that of the behavior it makes active (R277). -/
theorem CommandStep.onlySlotOf {s t : State} {i : Instr} (h : CommandStep s i t) :
    ∃ b, OnlySlotOf b s t ∧ (t.binding.active ≠ s.binding.active → t.binding.active = b) := by
  cases h with
  | ignored | setupDisplay | setDp | readNorm | readRaw =>
    exact ⟨.none, ⟨fun _ => rfl, fun _ => rfl, fun _ => rfl⟩, fun hne => absurd rfl hne⟩
  | counter =>
    exact ⟨.counter, ⟨fun hne => absurd rfl hne, fun _ => rfl, fun _ => rfl⟩, fun hne => absurd rfl hne⟩
  | carouselPause | carouselRestart =>
    exact ⟨.carousel, ⟨fun _ => rfl, fun hne => absurd rfl hne, fun _ => rfl⟩, fun hne => absurd rfl hne⟩
  | sliderPause | sliderRestart =>
    exact ⟨.slider, ⟨fun _ => rfl, fun _ => rfl, fun hne => absurd rfl hne⟩, fun hne => absurd rfl hne⟩
  | showStatic => exact ⟨.static, ⟨fun _ => rfl, fun _ => rfl, fun _ => rfl⟩, fun _ => rfl⟩
  | cntConfig => exact ⟨.counter, ⟨fun hne => absurd rfl hne, fun _ => rfl, fun _ => rfl⟩, fun _ => rfl⟩
  | carConfig => exact ⟨.carousel, ⟨fun _ => rfl, fun hne => absurd rfl hne, fun _ => rfl⟩, fun _ => rfl⟩
  | sldConfig => exact ⟨.slider, ⟨fun _ => rfl, fun _ => rfl, fun hne => absurd rfl hne⟩, fun _ => rfl⟩

theorem deliver_onlySlotOf {e : Event} {s t : State} (h : deliver e s = .next t) (he : e ≠ .reset) :
    ∃ b, OnlySlotOf b s t ∧ (t.binding.active ≠ s.binding.active → t.binding.active = b) := by
  rcases deliver_cases h with ⟨hreset, -⟩ | ⟨code, -, rfl⟩ | rfl | ⟨_, _, -, -, -, -, hstep⟩
  · exact absurd hreset he
  · exact ⟨_, tickWith_onlySlotOf blockParams code s, by simp⟩
  · exact ⟨.none, ⟨fun _ => rfl, fun _ => rfl, fun _ => rfl⟩, fun hne => absurd rfl hne⟩
  · exact hstep.onlySlotOf

/-- Settles O48: an event writes one behavior's slot at most, and a switch makes that behavior the active one. -/
theorem otherSlotsSurviveABehaviorSwitch : Obligations.OtherSlotsSurviveABehaviorSwitch := by
  intro e s t h he
  obtain ⟨b, hslot, hswitch⟩ := deliver_onlySlotOf h he
  refine ⟨hslot.slots, fun hne => ?_⟩
  rw [hswitch hne]
  exact hslot

/-! ## The bindings -/

/-- Settles O55: of the steps an event can make, only the reset and the four accepted configures write the bindings. -/
theorem onlyConfiguresRebind : Obligations.OnlyConfiguresRebind := by
  intro e s t h hne
  rcases deliver_cases h with ⟨hreset, -⟩ | ⟨code, -, rfl⟩ | rfl | ⟨ws, i, hcmd, hdecode, -, -, hstep⟩
  · exact .inl hreset
  · exact absurd (tickWith_binding _ _ _) hne
  · exact absurd rfl hne
  · refine .inr ⟨ws, i, hcmd, hdecode, ?_⟩
    cases hstep with
    | ignored | setupDisplay | setDp | counter | carouselPause | carouselRestart | sliderPause | sliderRestart
    | readNorm | readRaw => exact absurd rfl hne
    | showStatic => exact .inl ⟨_, _, _, rfl, rfl⟩
    | cntConfig => exact .inr (.inl ⟨_, _, _, _, _, _, _, _, _, rfl, rfl⟩)
    | carConfig => exact .inr (.inr (.inl ⟨_, _, _, _, _, _, _, rfl, rfl⟩))
    | sldConfig => exact .inr (.inr (.inr ⟨_, _, _, _, _, _, _, _, rfl, rfl⟩))

/-! ## The pending events -/

theorem exec_setInbox {i : Instr} {s t : State} (h : exec i s = .next t) (events : List Event) :
    exec i (s.setInbox events) = .next (t.setInbox events) := by
  cases i with
  | tick code =>
    obtain rfl : tickWith blockParams code s = t := Host.Outcome.next.inj h
    exact congrArg Host.Outcome.next (tickWith_setInbox blockParams code s events)
  | showStatic rs chars rper =>
    simp only [exec, execShowStatic] at h ⊢
    generalize sourceOf rs = source at h ⊢
    cases source <;> cases h <;> rfl
  | cntConfig rs asc stopEn dir start inc stop aper rper =>
    simp only [exec, execCntConfig] at h ⊢
    generalize configSources rs asc = sources, directionOf dir = direction at h ⊢
    cases sources <;> cases direction <;> cases h <;> rfl
  | cntSetDir dir =>
    simp only [exec, execCntSetDir] at h ⊢
    generalize directionOf dir = direction at h ⊢
    cases direction <;> cases h <;> rfl
  | carConfig rs asc cont pad aper rper text =>
    simp only [exec, execCarConfig] at h ⊢
    generalize configSources rs asc = sources, textFits text = fits at h ⊢
    cases sources <;> cases fits <;> cases h <;> rfl
  | sldConfig rs asc cont pad coll aper rper text =>
    simp only [exec, execSldConfig] at h ⊢
    generalize configSources rs asc = sources, textFits text = fits at h ⊢
    cases sources <;> cases fits <;> cases h <;> rfl
  | _ =>
    cases h
    rfl

/-- Settles O51: replacing the pending events by themselves is no change, so an instruction that commutes with every
replacement leaves them. -/
theorem instructionsIgnorePendingEvents : Obligations.InstructionsIgnorePendingEvents := by
  intro i s t events h
  have hsame : t = t.setInbox s.inbox := Host.Outcome.next.inj (h.symm.trans (exec_setInbox h s.inbox))
  exact ⟨(congrArg State.inbox hsame).trans (State.setInbox_inbox _ _), exec_setInbox h events⟩

/-! ## Reset -/

/-- Settles O52: the reset state is written out, and an empty memory reads nothing. -/
theorem resetValues : Obligations.ResetValues :=
  ⟨by decide, by decide, by decide, ⟨rfl, by decide, rfl, rfl, rfl, Memory.read?_nil⟩,
    ⟨rfl, rfl, rfl, rfl, Memory.read?_nil⟩⟩

end Sys2Proof.Machine
end

section
/-! SUPPORT. Noninterference of stale buffer entries (10_state.md R54, R75): two states that differ only in buffer
entries at or beyond the current lengths step to two such states. One lemma per update says that it keeps the relation;
a handler or a command is a composition of updates. -/

namespace Sys2Proof.Machine

/-- The carousel slot with another K_BUF. -/
def Carousel.withBuf (c : Carousel) (m : Memory) : Carousel := { c with buf := m }

/-- The slider slot with another S_BUF. -/
def Slider.withBuf (l : Slider) (m : Memory) : Slider := { l with buf := m }

/-! ## Reads of the buffers -/

theorem Memory.agreeBelow_writeFrom (b : Config.Buffer) (e₁ e₂ : Nat) (m₁ m₂ : Memory) {len : Nat} {vs : List Byte}
    (h : len ≤ vs.length) : Memory.AgreeBelow len b e₁ e₂ (Memory.writeFrom m₁ 0 vs) (Memory.writeFrom m₂ 0 vs) := by
  intro j hj
  have hj : j < vs.length := by omega
  exact Option.some.inj ((Memory.entry_writeFrom b e₁ m₁ vs j hj).trans (Memory.entry_writeFrom b e₂ m₂ vs j hj).symm)

/-- A window of a sequence that is not empty is read below K_LEN (R213). -/
theorem carWindow_eq_of_agreeBelow {e₁ e₂ : Nat} {c : Carousel} {m : Memory} (hlen : c.len ≠ 0)
    (h : Memory.AgreeBelow c.len.toNat .kBuf e₁ e₂ c.buf m) (i : Int) :
    carWindow e₁ c i = carWindow e₂ (c.withBuf m) i := by
  have hpos : c.len.toNat ≠ 0 := fun h0 => hlen (BitVec.eq_of_toNat_eq h0)
  have hchar (k : Nat) : carChar e₁ c i k = carChar e₂ (c.withBuf m) i k := by
    have := Int.emod_nonneg (i + k) (Int.natCast_ne_zero.2 hpos)
    have := Int.emod_lt_of_pos (i + k) (Int.natCast_pos.2 (Nat.pos_of_ne_zero hpos))
    exact h _ (by omega)
  simp only [carWindow, hchar]

/-- A page reads the memory below S_LEN only (R241). -/
theorem sldPage_eq_of_agreeBelow {e₁ e₂ : Nat} {l : Slider} {m : Memory}
    (h : Memory.AgreeBelow l.len.toNat .sBuf e₁ e₂ l.buf m) (p : Nat) :
    sldPage e₁ l p = sldPage e₂ (l.withBuf m) p := by
  have hchar (j : Nat) : sldChar e₁ l j = sldChar e₂ (l.withBuf m) j :=
    ite_congr rfl (h j) fun _ => rfl
  simp only [sldPage, hchar]

theorem sliderTick_withBuf (l : Slider) (m : Memory) :
    sliderTick (l.withBuf m) = (sliderTick l).withBuf m := by
  simp only [sliderTick, apply_ite (Slider.withBuf · m)]
  rfl

/-! ## Updates that keep the relation -/

namespace SameBelowLengths

section Updates

variable {s t : State}

/-- The second carousel slot is the first but for its buffer. -/
theorem carousel_eq (h : SameBelowLengths s t) : t.carousel = s.carousel.withBuf t.carousel.buf :=
  (congrArg (Carousel.withBuf · t.carousel.buf) h.carousel.symm :)

/-- The second slider slot is the first but for its buffer. -/
theorem slider_eq (h : SameBelowLengths s t) : t.slider = s.slider.withBuf t.slider.buf :=
  (congrArg (Slider.withBuf · t.slider.buf) h.slider.symm :)

theorem setInbox (h : SameBelowLengths s t) (es : List Event) : SameBelowLengths (s.setInbox es) (t.setInbox es) :=
  { h with inbox := rfl }

theorem emit (h : SameBelowLengths s t) (rs : List OutputRecord) : SameBelowLengths (s.emit rs) (t.emit rs) :=
  { h with trace := congrArg (· ++ rs) h.trace }

theorem setDisplay (h : SameBelowLengths s t) (d : Display) : SameBelowLengths (s.setDisplay d) (t.setDisplay d) :=
  { h with display := rfl }

theorem setBinding (h : SameBelowLengths s t) (b : Binding) : SameBelowLengths (s.setBinding b) (t.setBinding b) :=
  { h with binding := rfl }

theorem setCounter (h : SameBelowLengths s t) (c : Counter) : SameBelowLengths (s.setCounter c) (t.setCounter c) :=
  { h with counter := rfl }

theorem setCarousel (h : SameBelowLengths s t) (c : Carousel) {m : Memory}
    (hm : Memory.AgreeBelow c.len.toNat .kBuf s.epoch t.epoch c.buf m) :
    SameBelowLengths (s.setCarousel c) (t.setCarousel (c.withBuf m)) :=
  { h with carousel := rfl, kBuf := hm }

theorem setSlider (h : SameBelowLengths s t) (l : Slider) {m : Memory}
    (hm : Memory.AgreeBelow l.len.toNat .sBuf s.epoch t.epoch l.buf m) :
    SameBelowLengths (s.setSlider l) (t.setSlider (l.withBuf m)) :=
  { h with slider := rfl, sBuf := hm }

/-- An update of the display group. -/
theorem updateDisplay (h : SameBelowLengths s t) (f : Display → Display) :
    SameBelowLengths (s.setDisplay (f s.display)) (t.setDisplay (f t.display)) := by
  rw [h.display]
  exact h.setDisplay _

/-- An update of the counter slot. -/
theorem updateCounter (h : SameBelowLengths s t) (f : Counter → Counter) :
    SameBelowLengths (s.setCounter (f s.counter)) (t.setCounter (f t.counter)) := by
  rw [h.counter]
  exact h.setCounter _

/-- Records that depend on the counter slot only. -/
theorem emitOfCounter (h : SameBelowLengths s t) (f : Counter → List OutputRecord) :
    SameBelowLengths (s.emit (f s.counter)) (t.emit (f t.counter)) := by
  rw [h.counter]
  exact h.emit _

/-- An update of the carousel slot that neither reads the buffer nor writes it or the length. -/
theorem updateCarousel (h : SameBelowLengths s t) (f : Carousel → Carousel)
    (hbuf : ∀ c m, f (c.withBuf m) = (f c).withBuf m) (hlen : ∀ c, (f c).len = c.len) :
    SameBelowLengths (s.setCarousel (f s.carousel)) (t.setCarousel (f t.carousel)) := by
  have hkeep : (f s.carousel).buf = s.carousel.buf := (congrArg Carousel.buf (hbuf s.carousel s.carousel.buf) :)
  rw [h.carousel_eq, hbuf]
  exact h.setCarousel _ (by rw [hkeep, hlen]; exact h.kBuf)

/-- An update of the slider slot that neither reads the buffer nor writes it or the length. -/
theorem updateSlider (h : SameBelowLengths s t) (f : Slider → Slider)
    (hbuf : ∀ l m, f (l.withBuf m) = (f l).withBuf m) (hlen : ∀ l, (f l).len = l.len) :
    SameBelowLengths (s.setSlider (f s.slider)) (t.setSlider (f t.slider)) := by
  have hkeep : (f s.slider).buf = s.slider.buf := (congrArg Slider.buf (hbuf s.slider s.slider.buf) :)
  rw [h.slider_eq, hbuf]
  exact h.setSlider _ (by rw [hkeep, hlen]; exact h.sBuf)

theorem setDbuf (h : SameBelowLengths s t) (w : Window) : SameBelowLengths (s.setDbuf w) (t.setDbuf w) :=
  h.updateDisplay fun d => { d with dbuf := w }

theorem setActive (h : SameBelowLengths s t) (b : Behavior) : SameBelowLengths (s.setActive b) (t.setActive b) := by
  unfold State.setActive
  rw [h.binding]
  exact h.setBinding _

theorem drive (h : SameBelowLengths s t) (P : Config.Params) (seg : BitVec 7) (dp : Bool) (dig : BitVec 4) :
    SameBelowLengths (drive P seg dp dig s) (drive P seg dp dig t) :=
  h.updateDisplay fun d => { d with pins := driveLevels P d.pol seg dp dig }

theorem bindSources (h : SameBelowLengths s t) (r : Source) (rp : Word) (anim : Option Source) (ap : Word) :
    SameBelowLengths (bindSources r rp anim ap s) (bindSources r rp anim ap t) := by
  unfold Machine.bindSources
  rw [h.binding]
  exact (h.setBinding _).emit _

/-! ## Ticks -/

theorem refreshWith (h : SameBelowLengths s t) (P : Config.Params) :
    SameBelowLengths (refreshWith P s) (refreshWith P t) := by
  simp only [Machine.refreshWith, h.display]
  exact (h.setDisplay _).drive _ _ _ _

theorem cntTick (h : SameBelowLengths s t) : SameBelowLengths (cntTick s) (cntTick t) := by
  unfold Machine.cntTick
  rw [h.counter]
  exact (h.setCounter _).setDbuf _

theorem carTick (h : SameBelowLengths s t) : SameBelowLengths (carTick s) (carTick t) := by
  have hlen : t.carousel.len = s.carousel.len := (congrArg Carousel.len h.carousel_eq :)
  rcases carTick_cases s with ⟨hs, hs'⟩ | ⟨hs, hs'⟩ <;> rcases carTick_cases t with ⟨ht, ht'⟩ | ⟨ht, ht'⟩
  · rw [hs', ht']
    exact h
  · exact absurd (hlen.trans hs) ht
  · exact absurd (hlen.symm.trans ht) hs
  · have hwindow : carWindow s.epoch s.carousel (s16 (carAdvance s.carousel)) =
        carWindow t.epoch t.carousel (s16 (carAdvance t.carousel)) := by
      rw [h.carousel_eq]
      exact carWindow_eq_of_agreeBelow hs h.kBuf _
    rw [hs', ht', hwindow]
    exact (h.setDbuf _).updateCarousel carouselTick (fun _ _ => rfl) fun _ => rfl

theorem sldTick (h : SameBelowLengths s t) : SameBelowLengths (sldTick s) (sldTick t) := by
  have hpage : sldPage s.epoch s.slider s.slider.page.toNat = sldPage t.epoch t.slider t.slider.page.toNat := by
    rw [h.slider_eq]
    exact sldPage_eq_of_agreeBelow h.sBuf _
  unfold Machine.sldTick
  rw [hpage]
  exact (h.setDbuf _).updateSlider sliderTick sliderTick_withBuf fun l => (sliderTick_frame l).2.1

theorem animationTick (h : SameBelowLengths s t) : SameBelowLengths (animationTick s) (animationTick t) := by
  unfold Machine.animationTick
  rw [h.binding]
  cases t.binding.active with
  | none | static => exact h
  | counter => exact h.cntTick
  | carousel => exact h.carTick
  | slider => exact h.sldTick

theorem tickWith (h : SameBelowLengths s t) (P : Config.Params) (code : SourceCode) :
    SameBelowLengths (tickWith P code s) (tickWith P code t) := by
  unfold Machine.tickWith
  rw [h.binding]
  cases sourceOf code with
  | none => exact h
  | some src =>
    dsimp only
    split
    · exact h.refreshWith P
    · split
      · exact h.animationTick
      · exact h

/-! ## Events -/

theorem powerCycle (h : SameBelowLengths s t) : SameBelowLengths (powerCycle s) (powerCycle t) where
  display := rfl
  binding := rfl
  counter := rfl
  carousel := rfl
  kBuf := fun _ hj => absurd hj (Nat.not_lt_zero _)
  slider := rfl
  sBuf := fun _ hj => absurd hj (Nat.not_lt_zero _)
  inbox := h.inbox
  trace := h.trace

theorem setupDisplayWith (h : SameBelowLengths s t) (P : Config.Params) (bound : BitVec 4) (pol : Bool) :
    SameBelowLengths (setupDisplayWith P bound pol s) (setupDisplayWith P bound pol t) := by
  unfold Machine.setupDisplayWith
  rw [h.display]
  exact (h.setDisplay _).drive _ _ _ _

/-- A configured carousel's K_BUF is written up to K_LEN, whatever it held (R211). -/
theorem setCarousel_configured (h : SameBelowLengths s t) {text : List Byte} (cont pad : Bool)
    (hl : text.length ≤ 248) :
    SameBelowLengths
      ((s.setCarousel (carConfigured s.carousel text cont pad)).setDbuf
        (carWindow s.epoch (carConfigured s.carousel text cont pad) 0))
      ((t.setCarousel (carConfigured t.carousel text cont pad)).setDbuf
        (carWindow t.epoch (carConfigured t.carousel text cont pad) 0)) := by
  have hcover : (carConfigured s.carousel text cont pad).len.toNat ≤ (carBuild text cont pad).1.length := by
    rw [carConfigured_len_toNat _ _ _ hl]
    exact (carBuild_length text cont pad).1
  have hbuf := Memory.agreeBelow_writeFrom .kBuf s.epoch t.epoch s.carousel.buf t.carousel.buf hcover
  have hwindow : carWindow s.epoch (carConfigured s.carousel text cont pad) 0 =
      carWindow t.epoch (carConfigured t.carousel text cont pad) 0 :=
    carWindow_eq_of_agreeBelow (carConfigured_len_ne_zero _ _ _ hl) hbuf 0
  rw [hwindow]
  exact (h.setCarousel (carConfigured s.carousel text cont pad) hbuf).setDbuf _

/-- A configured slider's S_BUF is written up to S_LEN, whatever it held (R242). -/
theorem setSlider_configured (h : SameBelowLengths s t) {text : List Byte} (cont pad coll : Bool)
    (hl : text.length ≤ 248) :
    SameBelowLengths
      ((s.setSlider (sldConfigured s.slider text cont pad coll)).setDbuf
        (sldPage s.epoch (sldConfigured s.slider text cont pad coll) 0))
      ((t.setSlider (sldConfigured t.slider text cont pad coll)).setDbuf
        (sldPage t.epoch (sldConfigured t.slider text cont pad coll) 0)) := by
  have hcover := (sldConfigured_len_toNat s.slider cont pad coll hl).le
  have hbuf := Memory.agreeBelow_writeFrom .sBuf s.epoch t.epoch s.slider.buf t.slider.buf hcover
  have hpage : sldPage s.epoch (sldConfigured s.slider text cont pad coll) 0 =
      sldPage t.epoch (sldConfigured t.slider text cont pad coll) 0 :=
    sldPage_eq_of_agreeBelow hbuf 0
  rw [hpage]
  exact (h.setSlider (sldConfigured s.slider text cont pad coll) hbuf).setDbuf _

end Updates

end SameBelowLengths

/-- Two outcomes that answer related states, if both answer a state. -/
def SameOutcomes (o p : Outcome) : Prop := ∀ s t, o = .next s → p = .next t → SameBelowLengths s t

namespace SameBelowLengths

variable {s t : State}

theorem next (h : SameBelowLengths s t) : SameOutcomes (.next s) (.next t) := by
  rintro _ _ ⟨⟩ ⟨⟩
  exact h

theorem showStatic (h : SameBelowLengths s t) (rs : SourceCode) (chars : Window) (rper : Word) :
    SameOutcomes (execShowStatic rs chars rper s) (execShowStatic rs chars rper t) := by
  unfold execShowStatic
  cases sourceOf rs with
  | none => exact h.next
  | some r => exact (((h.setDbuf chars).setActive .static).bindSources r rper none 0).next

theorem cntConfig (h : SameBelowLengths s t) (rs asc : SourceCode) (stopEn : Bool) (dir : Byte)
    (start inc stop aper rper : Word) :
    SameOutcomes (execCntConfig rs asc stopEn dir start inc stop aper rper s)
      (execCntConfig rs asc stopEn dir start inc stop aper rper t) := by
  unfold execCntConfig
  cases configSources rs asc with
  | none => exact h.next
  | some sources =>
    cases directionOf dir with
    | none => exact h.next
    | some d => exact (((h.setCounter _).setActive .counter).bindSources _ _ _ _).next

theorem carConfig (h : SameBelowLengths s t) (rs asc : SourceCode) (cont pad : Bool) (aper rper : Word)
    (text : List Byte) :
    SameOutcomes (execCarConfig rs asc cont pad aper rper text s) (execCarConfig rs asc cont pad aper rper text t) := by
  unfold execCarConfig
  cases configSources rs asc with
  | none => exact h.next
  | some sources =>
    dsimp only
    split
    · next hfits =>
      have hslot := h.setCarousel_configured cont pad ((textFits_iff text).1 hfits)
      exact ((hslot.setActive .carousel).bindSources _ _ _ _).next
    · exact h.next

theorem sldConfig (h : SameBelowLengths s t) (rs asc : SourceCode) (cont pad coll : Bool) (aper rper : Word)
    (text : List Byte) :
    SameOutcomes (execSldConfig rs asc cont pad coll aper rper text s)
      (execSldConfig rs asc cont pad coll aper rper text t) := by
  unfold execSldConfig
  cases configSources rs asc with
  | none => exact h.next
  | some sources =>
    dsimp only
    split
    · next hfits =>
      have hslot := h.setSlider_configured cont pad coll ((textFits_iff text).1 hfits)
      exact ((hslot.setActive .slider).bindSources _ _ _ _).next
    · exact h.next

theorem cntSetDir (h : SameBelowLengths s t) (dir : Byte) :
    SameOutcomes (execCntSetDir dir s) (execCntSetDir dir t) := by
  unfold execCntSetDir
  rw [h.counter]
  cases directionOf dir with
  | none => exact h.next
  | some d => exact (h.setCounter _).next

theorem exec (h : SameBelowLengths s t) (i : Instr) : SameOutcomes (exec i s) (exec i t) := by
  cases i with
  | setupDisplay bound pol => exact (h.setupDisplayWith blockParams bound pol).next
  | setDp dp => exact (h.updateDisplay fun d => { d with dp := dp }).next
  | showStatic rs chars rper => exact h.showStatic rs chars rper
  | cntConfig rs asc stopEn dir start inc stop aper rper =>
    exact h.cntConfig rs asc stopEn dir start inc stop aper rper
  | cntPause => exact (h.updateCounter fun c => { c with pause := true }).next
  | cntResume => exact (h.updateCounter fun c => { c with pause := false }).next
  | cntToggle => exact (h.updateCounter fun c => { c with pause := toggled c.pause }).next
  | cntReset => exact (h.updateCounter fun c => { c with cur := c.start, norm := c.start, pause := false }).next
  | cntSetCount v =>
    exact (h.updateCounter fun c => { c with start := v, cur := v, norm := v, pause := false }).next
  | cntSetInc v => exact (h.updateCounter fun c => { c with inc := v }).next
  | cntSetDir dir => exact h.cntSetDir dir
  | cntSetStop v =>
    exact (h.updateCounter fun c => { c with stop := v, stopEn := true, pause := setStopPause v c.cur }).next
  | cntClearStop => exact (h.updateCounter fun c => { c with stopEn := false }).next
  | cntReadNorm => exact (h.emitOfCounter fun c => [.resp c.norm]).next
  | cntReadRaw => exact (h.emitOfCounter fun c => [.resp c.cur]).next
  | carConfig rs asc cont pad aper rper text => exact h.carConfig rs asc cont pad aper rper text
  | carPause => exact (h.updateCarousel (fun c => { c with pause := true }) (fun _ _ => rfl) fun _ => rfl).next
  | carResume => exact (h.updateCarousel (fun c => { c with pause := false }) (fun _ _ => rfl) fun _ => rfl).next
  | carToggle =>
    exact (h.updateCarousel (fun c => { c with pause := toggled c.pause }) (fun _ _ => rfl) fun _ => rfl).next
  | carRestart =>
    exact (h.updateCarousel (fun c => { c with ovf := false, idx := -1, pause := false }) (fun _ _ => rfl)
      fun _ => rfl).next
  | sldConfig rs asc cont pad coll aper rper text => exact h.sldConfig rs asc cont pad coll aper rper text
  | sldPause => exact (h.updateSlider (fun l => { l with pause := true }) (fun _ _ => rfl) fun _ => rfl).next
  | sldResume => exact (h.updateSlider (fun l => { l with pause := false }) (fun _ _ => rfl) fun _ => rfl).next
  | sldToggle =>
    exact (h.updateSlider (fun l => { l with pause := toggled l.pause }) (fun _ _ => rfl) fun _ => rfl).next
  | sldRestart =>
    exact (h.updateSlider (fun l => { l with page := 0, pause := false }) (fun _ _ => rfl) fun _ => rfl).next
  | tick code => exact (h.tickWith blockParams code).next

theorem deliver (h : SameBelowLengths s t) (e : Event) : SameOutcomes (deliver e s) (deliver e t) := by
  cases e with
  | cmd ws =>
    cases hd : decode ws with
    | ok i =>
      rw [deliver_cmd_of_decode_ok hd, deliver_cmd_of_decode_ok hd]
      exact h.exec i
    | error r =>
      rw [deliver_cmd_of_decode_error hd, deliver_cmd_of_decode_error hd]
      exact h.next
  | tick code => exact (h.tickWith blockParams code).next
  | reset => exact h.powerCycle.next

theorem step (h : SameBelowLengths s t) : SameOutcomes (step s) (step t) := by
  cases hs : s.inbox with
  | nil =>
    rw [step_of_inbox_eq_nil hs, step_of_inbox_eq_nil (h.inbox ▸ hs)]
    exact h.next
  | cons e rest =>
    rw [step_of_inbox_eq_cons hs, step_of_inbox_eq_cons (h.inbox ▸ hs)]
    exact (h.setInbox rest).deliver e

end SameBelowLengths

/-- Settles O59: reads stay below the current lengths, and a configure writes all that lies below the new length. -/
theorem staleBufferEntriesAreNeverObserved : Obligations.StaleBufferEntriesAreNeverObserved :=
  fun _ _ s' t' h => h.step s' t'

end Sys2Proof.Machine
end

section
/-! SUPPORT. The statements about the command encoding (30_encoding.md): decode after encode, encode after decode, which
word lists decode, what reserved header bits and text bytes do, and the pseudo-commands (R81-R98). -/

namespace Sys2Proof

/-! ## Decode after encode (R81-R91) -/

/-- The length R88 gives a text configure is that of its two periods and its packed text, while N fits in B3 (R85). -/
theorem length_textPayload {op : Op} (hfixed : op.fixedPayload = 2) (htext : op.hasText = true) (aper rper : Word)
    {text : List Byte} (hlen : text.length < 256) :
    (aper :: rper :: packText text).length + 1 = commandLength op (BitVec.ofNat 8 text.length).toNat := by
  simp [commandLength, hfixed, htext, Nat.mod_eq_of_lt hlen]
  omega

theorem extractLsb'_setWidth_bound (bound : BitVec 4) : (bound.setWidth 8).extractLsb' 0 4 = bound := by
  ext i hi
  simp [hi, show i < 8 by omega]

/-- Every well-formed command is what the decoder reads from its words; a tick has no words (R94). -/
theorem decode_encode (i : Instr) (hwf : i.wf = true) (hi : ∀ code, i ≠ .tick code) : decode (encode i) = .ok i := by
  cases i with
  | setupDisplay bound pol =>
    exact (decode_headerWord .setupDisplay 0 0 pol false false (bound.setWidth 8) [] rfl).trans
      (by simp [assemble, extractLsb'_setWidth_bound])
  | setDp dp => exact (decode_headerWord .setDp 0 0 dp false false 0 [] rfl).trans (by simp [assemble])
  | showStatic rs chars rper =>
    exact (decode_headerWord .showStatic rs 0 false false false 0 [_, rper] rfl).trans (by simp [assemble])
  | cntConfig rs asc stopEn dir start inc stop aper rper =>
    exact (decode_headerWord .cntConfig rs asc stopEn false false dir [start, inc, stop, aper, rper] rfl).trans
      (by simp [assemble])
  | cntSetDir dir => exact (decode_headerWord .cntSetDir 0 0 false false false dir [] rfl).trans (by simp [assemble])
  | carConfig rs asc cont pad aper rper text =>
    have hlen : text.length < 256 := Nat.lt_succ_of_le (of_decide_eq_true hwf)
    exact (decode_headerWord .carConfig rs asc cont pad false _ _ (length_textPayload rfl rfl aper rper hlen)).trans
      (by simp [assemble, Nat.mod_eq_of_lt hlen, unpackText_packText])
  | sldConfig rs asc cont pad coll aper rper text =>
    have hlen : text.length < 256 := Nat.lt_succ_of_le (of_decide_eq_true hwf)
    exact (decode_headerWord .sldConfig rs asc cont pad coll _ _ (length_textPayload rfl rfl aper rper hlen)).trans
      (by simp [assemble, Nat.mod_eq_of_lt hlen, unpackText_packText])
  | cntSetCount v | cntSetInc v | cntSetStop v
  | cntPause | cntResume | cntToggle | cntReset | cntClearStop | cntReadNorm | cntReadRaw
  | carPause | carResume | carToggle | carRestart | sldPause | sldResume | sldToggle | sldRestart =>
    exact decode_headerWord _ _ _ _ _ _ _ _ rfl
  | tick code => exact absurd rfl (hi code)

/-- Settles O1: a tick stands for itself, and every other instruction is a command. -/
theorem decodeOfEncodeIsTheInstruction : Obligations.DecodeOfEncodeIsTheInstruction := by
  intro i hwf
  have command (hi : ∀ code, i ≠ .tick code) : decodeEvent (.cmd (encode i)) = some i := by
    simp [decodeEvent, decode_encode i hwf hi, Except.toOption]
  cases i with
  | tick code => rfl
  | _ => exact command nofun

/-! ## The text of a decoded instruction (R89) -/

/-- The text of a text configure; no other instruction carries one. -/
def Instr.text? : Instr → Option (List Byte)
  | .carConfig _ _ _ _ _ _ text | .sldConfig _ _ _ _ _ _ _ text => some text
  | _ => none

/-- Well-formedness is about the text alone (R85). -/
theorem Instr.wf_of_text {i : Instr} (h : ∀ text, i.text? = some text → text.length ≤ 255) : i.wf = true := by
  cases i with
  | carConfig rs asc cont pad aper rper text => exact decide_eq_true (h text rfl)
  | sldConfig rs asc cont pad coll aper rper text => exact decide_eq_true (h text rfl)
  | _ => rfl

theorem text?_assemble (op : Op) (h : Word) (payload : List Word) :
    (assemble op h payload).text? =
      if op.hasText then some (unpackText (headerB3 h).toNat (payload.drop 2)) else none := by
  cases op <;> rfl

theorem wf_assemble (op : Op) (h : Word) (payload : List Word) : (assemble op h payload).wf = true := by
  refine Instr.wf_of_text fun text ht => ?_
  rw [text?_assemble, Option.ite_none_right_eq_some] at ht
  obtain ⟨-, ⟨⟩⟩ := ht
  rw [length_unpackText]
  exact Nat.le_of_lt_succ (headerB3 h).isLt

theorem assemble_ne_tick (op : Op) (h : Word) (payload : List Word) (code : SourceCode) :
    assemble op h payload ≠ .tick code := by
  cases op <;> nofun

/-- Character i of an unpacked text is byte i mod 4 of text word i div 4. -/
theorem getElem?_unpackText {n i : Nat} (hi : i < n) (ws : List Word) :
    (unpackText n ws)[i]? = some (charOfWord (ws.getD (i / 4) 0) (i % 4)) := by
  simp [unpackText, hi]

/-- Settles O5: the text is unpacked from the words after the two periods. -/
theorem textCharactersComeFromTheirBytes : Obligations.TextCharactersComeFromTheirBytes := by
  intro h aper rper ws text hdec
  obtain ⟨i, hi, htext⟩ : ∃ i, decode (h :: aper :: rper :: ws) = .ok i ∧ i.text? = some text := by
    obtain ⟨_, _, _, _, hd⟩ | ⟨_, _, _, _, _, hd⟩ := hdec
    · exact ⟨_, hd, rfl⟩
    · exact ⟨_, hd, rfl⟩
  obtain ⟨_, _, op, ⟨⟩, -, -, rfl⟩ := (decode_eq_ok_iff _ _).1 hi
  rw [text?_assemble, Option.ite_none_right_eq_some] at htext
  obtain ⟨-, ⟨⟩⟩ := htext
  refine ⟨length_unpackText _ _, fun i hi => ?_⟩
  rw [length_unpackText] at hi
  rw [getElem?_unpackText hi, Nat.add_comm 3]
  rfl

/-! ## Encode after decode (R86, R88, R89) -/

/-- The payload that encoding writes for what was assembled from `payload`: the words before the text as they were read,
and the N text bytes packed anew. -/
def reencodedPayload (op : Op) (n : Nat) (payload : List Word) : List Word :=
  (List.range op.fixedPayload).map (payload.getD · 0) ++
    if op.hasText then packText (unpackText n (payload.drop 2)) else []

theorem fixedPayload_of_hasText {op : Op} (h : op.hasText = true) : op.fixedPayload = 2 := by
  cases op with
  | carConfig | sldConfig => rfl
  | _ => cases h

theorem wordOfChars_charsOfWord (w : Word) :
    wordOfChars (charOfWord w 0) (charOfWord w 1) (charOfWord w 2) (charOfWord w 3) = w := by
  apply BitVec.eq_of_toNat_eq
  simp only [wordOfChars_toNat, charOfWord, BitVec.extractLsb'_toNat, Nat.shiftRight_eq_div_pow]
  omega

theorem setWidth_extractLsb'_bound (b : Byte) : (b.extractLsb' 0 4).setWidth 8 = b &&& 0x0F := by
  revert b
  decide

/-- The header bits an opcode uses, when they are the fields of a mask. -/
theorem and_usedHeaderBits {op : Op} (rs asc : SourceCode) (f0 f1 f2 : Bool) (b3 : Byte)
    (hused : usedHeaderBits op = headerWord 0xFF rs asc f0 f1 f2 b3) {h : Word} (hop : headerOp h = op.code) :
    h &&& usedHeaderBits op = headerWord op.code (headerRs h &&& rs) (headerAs h &&& asc) (headerF0 h && f0)
      (headerF1 h && f1) (headerF2 h && f2) (headerB3 h &&& b3) := by
  rw [hused, and_headerWord, hop]
  congr 1
  exact BitVec.and_allOnes

theorem and_usedHeaderBits_of_opOnly {op : Op} (hused : usedHeaderBits op = 0xFF) {h : Word}
    (hop : headerOp h = op.code) : h &&& usedHeaderBits op = headerWord op.code 0 0 false false false 0 := by
  have hmask : (0xFF : Word) = headerWord 0xFF 0 0 false false false 0 := by decide
  rw [and_usedHeaderBits 0 0 false false false 0 (hused.trans hmask) hop]
  simp

/-- Encoding what was assembled from a command keeps the header bits its opcode uses and the payload it reads. -/
theorem encode_assemble {op : Op} {h : Word} (hop : headerOp h = op.code) (payload : List Word) :
    encode (assemble op h payload) =
      (h &&& usedHeaderBits op) :: reencodedPayload op (headerB3 h).toNat payload := by
  have and_ones3 (x : SourceCode) : x &&& 7 = x := BitVec.and_allOnes
  have and_ones8 (x : Byte) : x &&& 0xFF = x := BitVec.and_allOnes
  cases op with
  | setupDisplay =>
    rw [and_usedHeaderBits 0 0 true false false 0x0F (by decide) hop, ← setWidth_extractLsb'_bound]
    simp [encode, assemble, reencodedPayload, Op.fixedPayload, Op.hasText]
  | setDp =>
    rw [and_usedHeaderBits 0 0 true false false 0 (by decide) hop]
    simp [encode, assemble, reencodedPayload, Op.fixedPayload, Op.hasText]
  | showStatic =>
    rw [and_usedHeaderBits 7 0 false false false 0 (by decide) hop, and_ones3]
    simp [encode, assemble, reencodedPayload, Op.fixedPayload, Op.hasText, List.range_succ, charsOfWord,
      wordOfChars_charsOfWord]
  | cntConfig =>
    rw [and_usedHeaderBits 7 7 true false false 0xFF (by decide) hop, and_ones3, and_ones3, and_ones8]
    simp [encode, assemble, reencodedPayload, Op.fixedPayload, Op.hasText, List.range_succ]
  | cntSetDir =>
    rw [and_usedHeaderBits 0 0 false false false 0xFF (by decide) hop, and_ones8]
    simp [encode, assemble, reencodedPayload, Op.fixedPayload, Op.hasText]
  | carConfig =>
    rw [and_usedHeaderBits 7 7 true true false 0xFF (by decide) hop, and_ones3, and_ones3, and_ones8]
    simp [encode, assemble, reencodedPayload, Op.fixedPayload, Op.hasText, List.range_succ]
  | sldConfig =>
    rw [and_usedHeaderBits 7 7 true true true 0xFF (by decide) hop, and_ones3, and_ones3, and_ones8]
    simp [encode, assemble, reencodedPayload, Op.fixedPayload, Op.hasText, List.range_succ]
  | cntSetCount | cntSetInc | cntSetStop
  | cntPause | cntResume | cntToggle | cntReset | cntClearStop | cntReadNorm | cntReadRaw
  | carPause | carResume | carToggle | carRestart | sldPause | sldResume | sldToggle | sldRestart =>
    rw [and_usedHeaderBits_of_opOnly rfl hop]
    rfl

/-- A command's payload is its fixed words and the words of its text (R88). -/
theorem length_payload {op : Op} {n : Nat} {payload : List Word} (hlen : payload.length + 1 = commandLength op n) :
    payload.length = op.fixedPayload + if op.hasText then textWords n else 0 := by
  unfold commandLength at hlen
  omega

theorem length_reencodedPayload {op : Op} {n : Nat} {payload : List Word}
    (hlen : payload.length + 1 = commandLength op n) : (reencodedPayload op n payload).length = payload.length := by
  rw [length_payload hlen]
  by_cases htext : op.hasText <;> simp [reencodedPayload, htext]

/-- The words before a text are kept. -/
theorem getElem?_reencodedPayload {op : Op} {n k : Nat} (hk : k < op.fixedPayload) {payload : List Word}
    (hlen : payload.length + 1 = commandLength op n) : (reencodedPayload op n payload)[k]? = payload[k]? := by
  have hk' : k < payload.length := by
    rw [length_payload hlen]
    exact Nat.lt_add_right _ hk
  rw [reencodedPayload, List.getElem?_append_left (by simpa using hk)]
  simp [hk, hk']

/-- Unpacking a text and packing it anew keeps the text's bytes. -/
theorem charOfWord_packText_unpackText {n j : Nat} (hj : j < n) (ws : List Word) :
    charOfWord ((packText (unpackText n ws)).getD (j / 4) 0) (j % 4) = charOfWord (ws.getD (j / 4) 0) (j % 4) := by
  rw [charOfWord_packText _ j (by simpa using hj), ← Option.some_inj, ← List.getElem?_eq_getElem,
    getElem?_unpackText hj]

/-- The text bytes are kept. -/
theorem charOfWord_reencodedPayload {op : Op} (htext : op.hasText = true) {n j : Nat} (hj : j < n)
    (payload : List Word) :
    charOfWord ((reencodedPayload op n payload).getD (2 + j / 4) 0) (j % 4) =
      charOfWord (payload.getD (2 + j / 4) 0) (j % 4) := by
  have hbyte := charOfWord_packText_unpackText hj (payload.drop 2)
  simpa [reencodedPayload, htext, fixedPayload_of_hasText htext, List.getElem?_append_right] using hbyte

/-- Settles O2: the encoding of what a command is assembled to has the command's used header bits and read payload. -/
theorem decodedInstructionsEncodeAgain : Obligations.DecodedInstructionsEncodeAgain := by
  intro ws i hdec
  obtain ⟨h, payload, op, rfl, hop, hlen, rfl⟩ := (decode_eq_ok_iff ws i).1 hdec
  have hwf := wf_assemble op h payload
  refine ⟨hwf, decode_encode _ hwf (assemble_ne_tick op h payload), h, payload, _, _, op, rfl,
    encode_assemble (Op.code_of_ofCode hop) payload, hop, rfl, length_reencodedPayload hlen, ?words, ?bytes⟩
  case words => exact fun k hk => getElem?_reencodedPayload hk hlen
  case bytes => exact fun htext j hj => charOfWord_reencodedPayload htext hj payload

/-! ## Reserved header bits (R86) -/

theorem decode_cons {op : Op} {h : Word} (hop : Op.ofCode (headerOp h) = some op) (payload : List Word) :
    decode (h :: payload) = if payload.length + 1 = commandLength op (headerB3 h).toNat then .ok (assemble op h payload)
      else .error .wrongLength := by
  simp [decode, hop]

/-- OP is used by every opcode. -/
theorem headerOp_and_usedHeaderBits (op : Op) (h : Word) : headerOp (h &&& usedHeaderBits op) = headerOp h := by
  have hused : headerOp (usedHeaderBits op) = BitVec.allOnes 8 := by cases op <;> rfl
  calc headerOp (h &&& usedHeaderBits op)
      = headerOp h &&& headerOp (usedHeaderBits op) := BitVec.extractLsb'_and
    _ = headerOp h := by rw [hused, BitVec.and_allOnes]

/-- B3 is used by the text configures. -/
theorem headerB3_and_usedHeaderBits {op : Op} (htext : op.hasText = true) (h : Word) :
    headerB3 (h &&& usedHeaderBits op) = headerB3 h := by
  have hused : headerB3 (usedHeaderBits op) = BitVec.allOnes 8 := by
    cases op with
    | carConfig | sldConfig => rfl
    | _ => cases htext
  calc headerB3 (h &&& usedHeaderBits op)
      = headerB3 h &&& headerB3 (usedHeaderBits op) := BitVec.extractLsb'_and
    _ = headerB3 h := by rw [hused, BitVec.and_allOnes]

section SameUsedBits

variable {op : Op} {h h' : Word} (hmask : h &&& usedHeaderBits op = h' &&& usedHeaderBits op)
include hmask

theorem headerOp_eq_of_used : headerOp h = headerOp h' := by
  rw [← headerOp_and_usedHeaderBits op h, hmask, headerOp_and_usedHeaderBits]

theorem headerB3_eq_of_used (htext : op.hasText = true) : headerB3 h = headerB3 h' := by
  rw [← headerB3_and_usedHeaderBits htext h, hmask, headerB3_and_usedHeaderBits htext]

theorem commandLength_eq_of_used :
    commandLength op (headerB3 h).toNat = commandLength op (headerB3 h').toNat := by
  by_cases htext : op.hasText = true
  · rw [headerB3_eq_of_used hmask htext]
  · simp [commandLength, htext]

theorem reencodedPayload_eq_of_used (payload : List Word) :
    reencodedPayload op (headerB3 h).toNat payload = reencodedPayload op (headerB3 h').toNat payload := by
  by_cases htext : op.hasText = true
  · rw [headerB3_eq_of_used hmask htext]
  · simp [reencodedPayload, htext]

/-- Headers that agree in their used bits assemble alike: the two instructions have one encoding, which decodes to
both. -/
theorem assemble_eq_of_used (hop : headerOp h = op.code) (payload : List Word) :
    assemble op h payload = assemble op h' payload := by
  have hop' : headerOp h' = op.code := (headerOp_eq_of_used hmask).symm.trans hop
  have decodes (g : Word) : decode (encode (assemble op g payload)) = .ok (assemble op g payload) :=
    decode_encode _ (wf_assemble op g payload) (assemble_ne_tick op g payload)
  have hencode : encode (assemble op h payload) = encode (assemble op h' payload) := by
    rw [encode_assemble hop, encode_assemble hop', hmask, reencodedPayload_eq_of_used hmask]
  exact Except.ok.inj ((decodes h).symm.trans (hencode ▸ decodes h'))

end SameUsedBits

/-- Settles O4: OP, the length and what is assembled are all read from the used bits. -/
theorem reservedHeaderBitsHaveNoEffect : Obligations.ReservedHeaderBitsHaveNoEffect := by
  intro op h h' payload (hop : Op.ofCode (headerOp h) = some op) hmask
  have hop' : Op.ofCode (headerOp h') = some op := headerOp_eq_of_used hmask ▸ hop
  rw [decode_cons hop, decode_cons hop', commandLength_eq_of_used hmask,
    assemble_eq_of_used hmask (Op.code_of_ofCode hop)]

/-! ## Which word lists decode (R88, R91-R93) -/

/-- The opcodes in the order of R91. -/
def opcodeMap : List Op :=
  [.setupDisplay, .setDp, .showStatic,
   .cntConfig, .cntPause, .cntResume, .cntToggle, .cntReset, .cntSetCount, .cntSetInc, .cntSetDir, .cntSetStop,
   .cntClearStop, .cntReadNorm, .cntReadRaw,
   .carConfig, .carPause, .carResume, .carToggle, .carRestart,
   .sldConfig, .sldPause, .sldResume, .sldToggle, .sldRestart]

theorem mem_opcodeMap (op : Op) : op ∈ opcodeMap := by cases op <;> decide

/-- The row of R91 of an opcode: OP, the words before a text, and whether text words follow. -/
def Op.row (op : Op) : Byte × Nat × Bool := (op.code, 1 + op.fixedPayload, op.hasText)

/-- A command decodes exactly if its OP is in a row and its length is the one the row gives. -/
theorem exists_decode_eq_ok_iff (ws : List Word) :
    (∃ i, decode ws = .ok i) ↔ ∃ h p, ws = h :: p ∧ ∃ row ∈ opcodeMap.map Op.row, row.1 = headerOp h ∧
      ws.length = row.2.1 + if row.2.2 then textWords (headerB3 h).toNat else 0 := by
  constructor
  · rintro ⟨i, hi⟩
    obtain ⟨h, p, op, rfl, hop, hlen, -⟩ := (decode_eq_ok_iff ws i).1 hi
    exact ⟨h, p, rfl, op.row, List.mem_map_of_mem (mem_opcodeMap op), (Op.code_of_ofCode hop).symm, hlen⟩
  · rintro ⟨h, p, rfl, row, hrow, hop, hlen⟩
    obtain ⟨op, -, rfl⟩ := List.mem_map.1 hrow
    have hop' : Op.ofCode (headerOp h) = some op := hop ▸ Op.ofCode_code op
    exact ⟨_, (decode_eq_ok_iff _ _).2 ⟨h, p, op, rfl, hop', hlen, rfl⟩⟩

/-- Settles O3: the rows are those of the opcode map, and a command that does not decode is ignored. -/
theorem onlyListedOpcodesOfTheRightLengthDecode : Obligations.OnlyListedOpcodesOfTheRightLengthDecode := by
  intro ws
  have hlisted := exists_decode_eq_ok_iff ws
  refine ⟨hlisted.2, fun hws => ?_⟩
  cases hdec : decode ws with
  | ok i => exact absurd (hlisted.1 ⟨i, hdec⟩) hws
  | error r => exact ⟨⟨r, rfl⟩, Machine.deliver_cmd_of_decode_error hdec⟩

/-! ## Worked encodings and pseudo-commands (R97, R98) -/

/-- Settles O6: the decoder run on each worked list. -/
theorem workedEncodingsDecode : Obligations.WorkedEncodingsDecode := ⟨rfl, rfl, rfl, rfl, rfl⟩

/-- Padding a list to a length is reading it with a default at each index below that length. -/
theorem append_replicate_eq_map_range {chars : List Byte} {n : Nat} (hlen : chars.length ≤ n) (c : Byte) :
    chars ++ List.replicate (n - chars.length) c = (List.range n).map (chars.getD · c) := by
  apply List.ext_getElem
  · simp
    omega
  · intro i _ _
    by_cases hi : i < chars.length <;> simp [List.getElem_append, hi]

/-- Settles O7: SHOW reads four characters with a blank past the end, and SET_PAUSE splits on v = 0. -/
theorem pseudoCommandsExpand : Obligations.PseudoCommandsExpand := by
  refine ⟨fun chars rs rper => ⟨fun hlen => ?short, fun hlen => ?long⟩, fun v => ?pause⟩
  case short =>
    exact ⟨#v[chars.getD 0 blank, chars.getD 1 blank, chars.getD 2 blank, chars.getD 3 blank],
      (append_replicate_eq_map_range hlen blank).symm, if_pos hlen⟩
  case long => exact if_neg (Nat.not_le.2 hlen)
  case pause => by_cases hv : v = 0 <;> simp [expandPseudo, hv]

end Sys2Proof
end

section
/-! SUPPORT. The statements about the glyph encoder (40_glyph_encoder.md): what normalization does to a code, what a code
encodes to on each side of 0x80, and the legality and the masks of the default table (R120-R127). -/

namespace Sys2Proof.Machine

/-! ## Normalization (R121) -/

/-- Normalization over the numbers: only 0x61..0x7A move, down by 0x20. -/
theorem toNat_normChar (c : Byte) :
    (normChar c).toNat = if 0x61 ≤ c.toNat ∧ c.toNat ≤ 0x7A then c.toNat - 0x20 else c.toNat := by
  unfold normChar
  simp only [BitVec.le_def, BitVec.reduceToNat]
  split
  · next hlower => exact BitVec.toNat_sub_of_le (BitVec.le_def.2 (Nat.le_trans (by decide) hlower.1))
  · rfl

theorem normChar_of_not_lower {c : Byte} (h : ¬ (0x61 ≤ c.toNat ∧ c.toNat ≤ 0x7A)) : normChar c = c :=
  BitVec.eq_of_toNat_eq (by rw [toNat_normChar, if_neg h])

@[simp] theorem normChar_normChar (c : Byte) : normChar (normChar c) = normChar c := by
  refine normChar_of_not_lower ?_
  rw [toNat_normChar]
  split <;> omega

/-- The letters lie below 0x80 on both sides of normalization, and every other code stays. -/
theorem le_toNat_normChar_iff (c : Byte) : 0x80 ≤ (normChar c).toNat ↔ 0x80 ≤ c.toNat := by
  rw [toNat_normChar]
  split <;> omega

/-! ## The encoder (R120, R123) -/

theorem encodeGlyph_of_ge (P : Config.Params) {c : Byte} (h : 0x80 ≤ c.toNat) : encodeGlyph P c = 0 := by
  simp [encodeGlyph, BitVec.le_def, h]

theorem encodeGlyph_of_lt (P : Config.Params) {c : Byte} (h : c.toNat < 0x80) :
    encodeGlyph P c = P.glyphTable ((normChar c).setWidth 7) := by
  simp [encodeGlyph, BitVec.le_def, Nat.not_le.2 h]

theorem encodeGlyph_of_unsupported {P : Config.Params} (hP : P.Legal) {c : Byte}
    (h : Config.supported ((normChar c).setWidth 7) = false) : encodeGlyph P c = 0 := by
  rcases Nat.lt_or_ge c.toNat 0x80 with hlt | hge
  · rw [encodeGlyph_of_lt P hlt, hP.unsupportedBlank _ h]
  · exact encodeGlyph_of_ge P hge

/-- Settles O10: the encoder on each side of 0x80, and the legal table's blanks. -/
theorem glyphsAreLookedUpNormalized : Obligations.GlyphsAreLookedUpNormalized := by
  refine fun P c => ⟨encodeGlyph_of_ge P, fun hlt => ?_, fun hP => encodeGlyph_of_unsupported hP⟩
  rw [encodeGlyph_of_lt P hlt, ← toNat_normChar, BitVec.ofNat_toNat]

/-- Settles O11: both codes lie on one side of 0x80, and below it normalization is idempotent. -/
theorem glyphsAreCaseInsensitive : Obligations.GlyphsAreCaseInsensitive := by
  intro P c
  rcases Nat.lt_or_ge c.toNat 0x80 with hlt | hge
  · have hlt' : (normChar c).toNat < 0x80 := Nat.not_le.1 (mt (le_toNat_normChar_iff c).1 (Nat.not_le.2 hlt))
    rw [encodeGlyph_of_lt P hlt', encodeGlyph_of_lt P hlt, normChar_normChar]
  · rw [encodeGlyph_of_ge P ((le_toNat_normChar_iff c).2 hge), encodeGlyph_of_ge P hge]

/-! ## The default table (R124, R125) -/

/-- R124 of R125's table, each point over the 128 codes. -/
theorem blockParams_legal : blockParams.Legal where
  unsupportedBlank := by decide
  spaceBlank := by decide
  othersLit := by decide

/-- Settles O12: R124 of the table, and the encoder run on each row of R125. -/
theorem defaultGlyphTableIsLegal : Obligations.DefaultGlyphTableIsLegal :=
  ⟨blockParams_legal, by decide, by decide, by decide, by decide⟩

end Sys2Proof.Machine
end

section
/-! SUPPORT. The statements about the display multiplexer (41_digit_mux.md): the outputs of a refresh and of a
SETUP_DISPLAY, the display commands from their words, the cycle through the positions, and which events write the index,
the pins and the display buffer (R140-R154). -/

namespace Sys2Proof.Machine

/-! ## The logical outputs of a refresh (R140, R142) -/

theorem segmentLit_refreshWith (P : Config.Params) (s : State) (j : Nat) (hj : j < 7) :
    segmentLit P (refreshWith P s).display j =
      (encodeGlyph P s.display.dbuf[(refreshWith P s).display.digIdx]).getLsbD j :=
  segmentLit_driven rfl j hj

theorem pointLit_refreshWith (P : Config.Params) (s : State) : pointLit P (refreshWith P s).display = s.display.dp :=
  pointLit_driven rfl

theorem digitEnabled_refreshWith (P : Config.Params) (s : State) (k : Position) :
    digitEnabled P (refreshWith P s).display k = true ↔
      k = (refreshWith P s).display.digIdx ∧ s.display.bound.getLsbD (refreshWith P s).display.digIdx.val = true := by
  rw [digitEnabled_driven rfl]
  exact getLsbD_digitEnable _ _ k

/-- The positions come round modulo 4 (R141). -/
theorem refreshWith_digIdx_val (P : Config.Params) (s : State) :
    (refreshWith P s).display.digIdx.val = (s.display.digIdx.val + 1) % 4 := rfl

/-- Settles O14: the pins are driven for the new position, and read back under the same polarity. -/
theorem refreshOutputsHoldForEveryParameter : Obligations.RefreshOutputsHoldForEveryParameter :=
  fun P s => ⟨segmentLit_refreshWith P s, pointLit_refreshWith P s, digitEnabled_refreshWith P s⟩

/-- Settles O13: the tick is dispatched to REFRESH, which writes the index and the pins only. -/
theorem refreshShowsTheNextDigit : Obligations.RefreshShowsTheNextDigit := by
  intro s code src hcode hrsrc
  exact ⟨(refreshWith blockParams s).display.pins, congrArg Host.Outcome.next (tickWith_refresh hcode hrsrc),
    refreshWith_digIdx_val blockParams s, refreshOutputsHoldForEveryParameter blockParams s⟩

/-! ## The display commands (R150-R152) -/

/-- BOUND is the low half of B3 (R150). -/
theorem extractLsb'_headerB3 (h : Word) : (headerB3 h).extractLsb' 0 4 = h.extractLsb' 24 4 := by
  ext i hi
  simp [headerB3, show i < 8 by omega]

/-- Settles O16: the pins are driven with no segment, no point and no digit under the new polarity. -/
theorem setupDisplayDeassertsEverything : Obligations.SetupDisplayDeassertsEverything := by
  refine ⟨fun h hop => ?_, fun bound pol s => ?_⟩
  · rw [← extractLsb'_headerB3]
    exact decode_textless .setupDisplay h [] hop rfl rfl
  refine ⟨driveLevels blockParams pol 0 false 0, rfl, fun j hj => ?segments, pointLit_driven rfl, fun k => ?digits⟩
  case segments => exact (segmentLit_driven rfl j hj).trans BitVec.getLsbD_zero
  case digits => exact (digitEnabled_driven rfl k).trans BitVec.getLsbD_zero

/-- Settles O17: the decoder run on the header, and the meaning itself. -/
theorem setDpWritesOnlyDp : Obligations.SetDpWritesOnlyDp :=
  ⟨fun h hop => decode_textless .setDp h [] hop rfl rfl, fun _ _ => rfl⟩

/-- Bind as one update of the binding group and the trace, its records as lists over the optional sources (R272). -/
theorem bindSources_eq (r : Source) (rp : Word) (anim : Option Source) (ap : Word) (s : State) :
    bindSources r rp anim ap s = { s with
      binding := { s.binding with rsrc := some r, rper := rp, asrc := anim, aper := ap }
      trace := s.trace ++ s.binding.rsrc.toList.map .disarm ++ s.binding.asrc.toList.map .disarm ++ [.arm r rp] ++
        anim.toList.map (.arm · ap) } := by
  simp only [bindSources, State.setBinding, State.emit, bindRecords_eq, List.append_assoc]

/-- Settles O18: the two cases of the command, the accepted one bound to the one source its code names. -/
theorem showStaticWritesTheFourCharacters : Obligations.ShowStaticWritesTheFourCharacters := by
  refine ⟨fun h chars rper hop => decode_textless .showStatic h [chars, rper] hop rfl rfl, fun rs chars rper s => ?_⟩
  rcases exec_showStatic_cases rs chars rper s with ⟨hgt, hexec⟩ | ⟨r, hr, hexec⟩
  · exact ⟨fun _ => hexec, fun src hsrc => by omega⟩
  · refine ⟨fun hgt => by omega, fun src hsrc => ?_⟩
    obtain rfl : r = src := Fin.ext (hr.symm.trans hsrc)
    rw [hexec, bindSources_eq]
    simp [State.setDbuf, State.setActive, State.setDisplay, State.setBinding]

/-! ## What a tick does to the display -/

/-- A tick refreshes, or leaves the display but for the display buffer. -/
theorem tickWith_display_cases (P : Config.Params) (code : SourceCode) (s : State) :
    (∃ src, code.toNat = src.val ∧ s.binding.rsrc = some src ∧ tickWith P code s = refreshWith P s) ∨
    ((∀ src : Source, code.toNat = src.val → s.binding.rsrc ≠ some src) ∧
      ∃ w, (tickWith P code s).display = { s.display with dbuf := w }) := by
  rcases tickWith_cases P code s with hrefresh | ⟨src, hcode, hr, -, h⟩ | ⟨hno, h⟩
  · exact .inl hrefresh
  · obtain ⟨-, -, -, -, hdisplay, -⟩ := animationTick_frame s
    refine .inr ⟨fun src' hcode' => ?_, h ▸ hdisplay⟩
    rwa [Fin.ext (hcode'.symm.trans hcode)]
  · exact .inr ⟨fun src hcode => (hno src hcode).1, s.display.dbuf, by rw [h]⟩

/-! ## The cycle through the positions (R141, R149) -/

/-- What n refreshes and any other ticks make of `s`: the refresh source stays, the index is n places on, and once n > 0
exactly the lit position is enabled, if it is bound. -/
structure RefreshedTimes (s : State) (n : Nat) (t : State) : Prop where
  /-- No tick rebinds (R30). -/
  rsrc : t.binding.rsrc = s.binding.rsrc
  /-- No tick writes BOUND (R148, R150). -/
  bound : t.display.bound = s.display.bound
  /-- The place in the cycle 0,1,2,3 (R141). -/
  digIdx : t.display.digIdx.val = (s.display.digIdx.val + n) % 4
  /-- The enables of the last refresh (R142, R149). -/
  enabled : 0 < n → ∀ k : Position, digitEnabled blockParams t.display k = true ↔
    k = t.display.digIdx ∧ s.display.bound.getLsbD k.val = true

theorem RefreshedTimes.zero (s : State) : RefreshedTimes s 0 s :=
  ⟨rfl, rfl, (Nat.mod_eq_of_lt s.display.digIdx.isLt).symm, fun h => absurd h (Nat.lt_irrefl 0)⟩

theorem RefreshedTimes.refresh {s t : State} {n : Nat} (h : RefreshedTimes s n t) :
    RefreshedTimes s (n + 1) (refreshWith blockParams t) where
  rsrc := h.rsrc
  bound := h.bound
  digIdx := by rw [refreshWith_digIdx_val, h.digIdx, Nat.mod_add_mod, Nat.add_assoc]
  enabled := fun _ k => by
    rw [digitEnabled_refreshWith, h.bound]
    exact and_congr_right fun hk => by rw [hk]

/-- A tick that is no refresh writes at most the display buffer, which no clause looks at. -/
theorem RefreshedTimes.otherTick {s t u : State} {n : Nat} (h : RefreshedTimes s n t) (hbinding : u.binding = t.binding)
    {w : Window} (hdisplay : u.display = { t.display with dbuf := w }) : RefreshedTimes s n u where
  rsrc := hbinding ▸ h.rsrc
  bound := hdisplay ▸ h.bound
  digIdx := hdisplay ▸ h.digIdx
  enabled := hdisplay ▸ h.enabled

/-- Settles O19: by induction over the ticks, those of the refresh source's code refresh and no other does. -/
theorem multiplexerCyclesThroughThePositions : Obligations.MultiplexerCyclesThroughThePositions := by
  intro s src codes hrsrc
  have hticks := ticks_induction (RefreshedTimes s) (BitVec.ofNat 3 src.val) ?hit ?miss codes 0 s (.zero s)
  case hit =>
    intro n t h
    rw [tickWith_refresh ((code_eq_iff _ src).1 rfl) (h.rsrc.trans hrsrc)]
    exact h.refresh
  case miss =>
    intro n t c hc h
    rcases tickWith_display_cases blockParams c t with ⟨src', hcode, hr, -⟩ | ⟨-, w, hdisplay⟩
    · obtain rfl : src = src' := Option.some.inj (hrsrc.symm.trans (h.rsrc.symm.trans hr))
      exact absurd ((code_eq_iff c src).2 hcode) hc
    · exact h.otherTick (tickWith_binding _ _ _) hdisplay
  rw [Nat.zero_add] at hticks
  exact ⟨_, run_ticks codes s, hticks.digIdx, hticks.enabled⟩

/-! ## Who writes the index, the pins and the display buffer (R141, R146, R154) -/

/-- No command changes the index (R141). -/
theorem CommandStep.digIdx {s t : State} {i : Instr} (h : CommandStep s i t) :
    t.display.digIdx = s.display.digIdx := by
  cases h <;> rfl

/-- Settles O21: commands leave the index, and of the ticks only a refresh moves it. -/
theorem onlyRefreshMovesTheDigitIndex : Obligations.OnlyRefreshMovesTheDigitIndex := by
  refine ⟨fun ws s => ?command, fun code s => ⟨tickWith blockParams code s, rfl, ?tick⟩⟩
  case command =>
    obtain ⟨t, ht⟩ := deliver_total (.cmd ws) s
    refine ⟨t, ht, ?_⟩
    rcases deliver_cases ht with ⟨he, -⟩ | ⟨_, he, -⟩ | rfl | ⟨_, _, -, -, -, -, hstep⟩
    · cases he
    · cases he
    · rfl
    · exact hstep.digIdx
  case tick =>
    rcases tickWith_display_cases blockParams code s with ⟨src, hcode, hr, h⟩ | ⟨hno, w, hdisplay⟩
    · exact .inl ⟨src, hcode, hr, h ▸ refreshWith_digIdx_val blockParams s⟩
    · exact .inr ⟨hno, by rw [hdisplay]⟩

/-- Of the commands only SETUP_DISPLAY drives the pins (R146). -/
theorem CommandStep.pins {s t : State} {i : Instr} (h : CommandStep s i t)
    (hne : t.display.pins ≠ s.display.pins) : ∃ bound pol, i = .setupDisplay bound pol := by
  cases h with
  | setupDisplay bound pol => exact ⟨bound, pol, rfl⟩
  | _ => exact absurd rfl hne

/-- Settles O54: SETUP_DISPLAY is the one command and REFRESH the one tick that drives the pins. -/
theorem pinLevelsHoldBetweenWrites : Obligations.PinLevelsHoldBetweenWrites := by
  intro e s t h hne
  rcases deliver_cases h with ⟨hreset, -⟩ | ⟨code, htick, rfl⟩ | rfl | ⟨ws, i, hcmd, hdecode, -, -, hstep⟩
  · exact .inl hreset
  · rcases tickWith_display_cases blockParams code s with ⟨src, hsrc, hr, -⟩ | ⟨-, w, hdisplay⟩
    · exact .inr (.inr ⟨code, src, htick, hsrc, hr⟩)
    · exact absurd (by rw [hdisplay]) hne
  · exact absurd rfl hne
  · obtain ⟨bound, pol, rfl⟩ := hstep.pins hne
    exact .inr (.inl ⟨ws, bound, pol, hcmd, hdecode⟩)

/-- NONE and STATIC have no animation handler (R153). -/
theorem animated_of_animationTick_ne {s : State} (h : animationTick s ≠ s) : s.binding.active.animated = true := by
  rcases animationTick_cases s with ⟨-, heq⟩ | ⟨hb, -⟩ | ⟨hb, -⟩ | ⟨hb, -⟩
  · exact absurd heq h
  all_goals
    rw [hb]
    rfl

/-- A tick that writes the display buffer is the animation source's, of an animated behavior (R154, R275). -/
theorem tickWith_dbuf {P : Config.Params} {code : SourceCode} {s : State}
    (hne : (tickWith P code s).display.dbuf ≠ s.display.dbuf) :
    ∃ src, code.toNat = src.val ∧ s.binding.rsrc ≠ some src ∧ s.binding.asrc = some src ∧
      s.binding.active.animated = true := by
  rcases tickWith_cases P code s with ⟨_, -, -, h⟩ | ⟨src, hcode, hr, ha, h⟩ | ⟨-, h⟩ <;> rw [h] at hne
  · exact absurd rfl hne
  · exact ⟨src, hcode, hr, ha, animated_of_animationTick_ne fun heq => hne (by rw [heq])⟩
  · exact absurd rfl hne

/-- Settles O20: of the commands only three configures write the display buffer, each with its own ACTIVE. -/
theorem displayBufferHasOneOwner : Obligations.DisplayBufferHasOneOwner := by
  intro e s t h hne
  rcases deliver_cases h with ⟨hreset, -⟩ | ⟨code, htick, rfl⟩ | rfl | ⟨ws, i, hcmd, hdecode, -, -, hstep⟩
  · exact .inl hreset
  · obtain ⟨src, hsrc, hr, ha, hanimated⟩ := tickWith_dbuf hne
    exact .inr (.inr (.inr (.inr ⟨code, src, htick, hsrc, hr, ha, hanimated, tickWith_binding _ _ _⟩)))
  · exact absurd rfl hne
  · cases hstep with
    | showStatic => exact .inr (.inl ⟨ws, _, _, _, hcmd, hdecode, rfl⟩)
    | carConfig => exact .inr (.inr (.inl ⟨ws, _, _, _, _, _, _, _, hcmd, hdecode, rfl⟩))
    | sldConfig => exact .inr (.inr (.inr (.inl ⟨ws, _, _, _, _, _, _, _, _, hcmd, hdecode, rfl⟩)))
    | _ => exact absurd rfl hne

end Sys2Proof.Machine
end

section
/-! SUPPORT. The statements about the bounded counter (42_counter.md): the fold and the projection as integers, the
counting tick (R171) and what it keeps (R185-R187), CNT_CONFIG and the controls from their words, and which events clear
a pause (R170-R188). -/

namespace Sys2Proof.Machine

/-! ## The fold and the projection as integers (R172, R173) -/

/-- Settles O22: both corrections move towards zero, so no branch leaves the 32-bit range and `u32` is exact. -/
theorem foldCorrectsOnce : Obligations.FoldCorrectsOnce := by
  intro v
  have hlo : -2 ^ 31 ≤ v.toInt := v.le_toInt
  have hhi : v.toInt < 2 ^ 31 := v.toInt_lt
  refine toInt_ofInt_of_range _ ?lower ?upper
  case lower => simp only [s32]; split_ifs <;> omega
  case upper => simp only [s32]; split_ifs <;> omega

/-- The correction is by 10000, so the display's digits do not see it. -/
theorem toInt_fold_emod (v : Word) : (fold v).toInt % 10000 = v.toInt % 10000 := by
  rw [foldCorrectsOnce v]
  split_ifs <;> omega

/-- A value at most one range away is folded into [0, 9999] (R172). -/
theorem toInt_fold_mem_range {v : Word} (hlo : -10000 ≤ v.toInt) (hhi : v.toInt ≤ 19999) :
    0 ≤ (fold v).toInt ∧ (fold v).toInt ≤ 9999 := by
  rw [foldCorrectsOnce v]
  split_ifs <;> omega

theorem digitChar_eq (d : Nat) : digitChar d = BitVec.ofNat 8 (0x30 + d) := (BitVec.ofNat_add 0x30 d).symm

/-- Settles O23: the digits are the quotients the projection takes of a number below 10000. -/
theorem projectionIsFourDecimalDigits : Obligations.ProjectionIsFourDecimalDigits := by
  intro v
  obtain ⟨n, hn⟩ := Int.eq_ofNat_of_zero_le (Int.emod_nonneg v.toInt (b := 10000) (by decide))
  have hlt : n < 10000 := by omega
  have hproj : proj v = decimalWindow n := by simp only [proj, s32, hn, Int.toNat_natCast]
  refine ⟨n / 1000, n / 100 % 10, n / 10 % 10, n % 10, by omega, by omega, by omega, by omega, by omega, ?_⟩
  simp only [hproj, ← digitChar_eq]
  rfl

/-! ## The counting tick (R171) -/

theorem countStep_eq_ite (dir : Direction) (v inc : Word) :
    countStep dir v inc = if dir = .increase then v + inc else v - inc := by
  cases dir <;> rfl

theorem counterTick_of_paused {c : Counter} (h : c.pause = true) : counterTick c = c := if_pos h

theorem counterTick_of_running {c : Counter} (h : c.pause = false) :
    counterTick c = { c with
      cur := countStep c.dir c.cur c.inc
      norm := fold (countStep c.dir c.norm c.inc)
      pause := counterHalt c.stopEn (countStep c.dir c.cur c.inc) c.stop } :=
  if_neg (by simp [h])

/-- The dispatch of a counting tick (R275). -/
theorem exec_tick_counter {s : State} {code : SourceCode} {src : Source} (hcode : code.toNat = src.val)
    (hr : s.binding.rsrc ≠ some src) (ha : s.binding.asrc = some src) (hactive : s.binding.active = .counter) :
    exec (.tick code) s = .next (cntTick s) := by
  have htick : animationTick s = cntTick s := by simp [animationTick, hactive]
  exact congrArg Host.Outcome.next ((tickWith_animation hcode hr ha).trans htick)

/-- Settles O25: the tick is dispatched to CNT_TICK, whose slot is that of a paused or of a running counter. -/
theorem countingTickStepsAndProjects : Obligations.CountingTickStepsAndProjects := by
  intro s code src hcode hr ha hactive
  rw [exec_tick_counter hcode hr ha hactive]
  simp only [← countStep_eq_ite]
  cases hp : s.counter.pause with
  | true => simp only [cntTick, counterTick_of_paused hp]; rfl
  | false => simp only [cntTick, counterTick_of_running hp]; rfl

/-! ## What a counting tick keeps (R185-R187) -/

/-- Subtracting C_INC is adding its complement (R185). -/
theorem countStep_increase_complement (v inc : Word) :
    countStep .increase v (BitVec.ofNat 32 (2 ^ 32 - inc.toNat)) = countStep .decrease v inc :=
  (BitVec.sub_eq_add_neg v inc).symm

/-- Settles O33: the two ticks step both values alike, and everything else follows from the values. -/
theorem decreasingIsIncreasingByTheComplement : Obligations.DecreasingIsIncreasingByTheComplement := by
  intro c hdir
  cases hp : c.pause with
  | true => simp [counterTick_of_paused, hp]
  | false => simp only [counterTick_of_running, hp, hdir, countStep_increase_complement, and_self]

/-- C_INC with the sign of the counting direction. -/
def signedInc (dir : Direction) (inc : Word) : Int :=
  if dir = .increase then (inc.toNat : Int) else -(inc.toNat : Int)

theorem signedInc_mem_range {dir : Direction} {inc : Word} (hinc : inc.toNat ≤ 10000) :
    -10000 ≤ signedInc dir inc ∧ signedInc dir inc ≤ 10000 := by
  unfold signedInc
  split_ifs <;> omega

/-- A counting step that does not leave the 32-bit range, as integers. -/
theorem toInt_countStep {dir : Direction} {v inc : Word} (hlo : -2147483648 ≤ v.toInt + signedInc dir inc)
    (hhi : v.toInt + signedInc dir inc < 2147483648) : (countStep dir v inc).toInt = v.toInt + signedInc dir inc := by
  cases dir with
  | increase => exact countStep_increase v inc ▸ toInt_ofInt_of_range _ hlo hhi
  | decrease => exact countStep_decrease v inc ▸ toInt_ofInt_of_range _ hlo hhi

section SmallIncrement

variable {c : Counter} (hlo : 0 ≤ c.norm.toInt) (hhi : c.norm.toInt ≤ 9999) (hinc : c.inc.toNat ≤ 10000)
include hlo hhi hinc

/-- The normalized value steps without a wrap. -/
theorem toInt_countStep_norm : (countStep c.dir c.norm c.inc).toInt = c.norm.toInt + signedInc c.dir c.inc := by
  obtain ⟨hmin, hmax⟩ := signedInc_mem_range (dir := c.dir) hinc
  exact toInt_countStep (by omega) (by omega)

/-- A step of at most 10000 from the range ends at most one range away, so it is folded back. -/
theorem counterTick_norm_mem_range : 0 ≤ (counterTick c).norm.toInt ∧ (counterTick c).norm.toInt ≤ 9999 := by
  cases hp : c.pause with
  | true => exact (counterTick_of_paused hp).symm ▸ ⟨hlo, hhi⟩
  | false =>
    obtain ⟨hmin, hmax⟩ := signedInc_mem_range (dir := c.dir) hinc
    have hstep := toInt_countStep_norm hlo hhi hinc
    rw [counterTick_of_running hp]
    exact toInt_fold_mem_range (by omega) (by omega)

/-- Both values step alike, and the fold is no change modulo 10000. -/
theorem counterTick_emod_eq (hcong : (c.cur.toInt - c.norm.toInt) % 10000 = 0)
    (hmin : -2 ^ 31 ≤ c.cur.toInt + signedInc c.dir c.inc)
    (hmax : c.cur.toInt + signedInc c.dir c.inc ≤ 2 ^ 31 - 1) :
    ((counterTick c).cur.toInt - (counterTick c).norm.toInt) % 10000 = 0 := by
  cases hp : c.pause with
  | true => rwa [counterTick_of_paused hp]
  | false =>
    have hnorm := toInt_countStep_norm hlo hhi hinc
    have hcur : (countStep c.dir c.cur c.inc).toInt = c.cur.toInt + signedInc c.dir c.inc :=
      toInt_countStep (by omega) (by omega)
    have hfold := toInt_fold_emod (countStep c.dir c.norm c.inc)
    rw [counterTick_of_running hp]
    dsimp only
    omega

end SmallIncrement

/-- Settles O31: the range and the congruence, and the projection sees a value modulo 10000 only. -/
theorem smallIncrementsKeepTheCountInRange : Obligations.SmallIncrementsKeepTheCountInRange := by
  intro c hlo hhi hinc
  refine ⟨counterTick_norm_mem_range hlo hhi hinc, fun hcong hmin hmax => ?_⟩
  have hcong' := counterTick_emod_eq hlo hhi hinc hcong hmin hmax
  exact ⟨hcong', proj_eq_of_emod_eq (by omega)⟩

/-- Settles O32: 9000 + 15000 is 24000, which one correction leaves at 14000. -/
theorem largeIncrementsStayUnderNormalized : Obligations.LargeIncrementsStayUnderNormalized := by
  intro c hp hdir hnorm hinc
  have htick : (counterTick c).norm = 14000 := by
    simp only [counterTick_of_running hp, hdir, hnorm, hinc]
    decide
  exact ⟨htick, by rw [htick]; decide⟩

/-! ## CNT_CONFIG (R170) -/

/-- The two recognized direction codes (R85). -/
theorem directionOf_of_code {code : Byte} {d : Direction}
    (h : code = 0x00 ∧ d = .increase ∨ code = 0x01 ∧ d = .decrease) : directionOf code = some d := by
  rcases h with ⟨rfl, rfl⟩ | ⟨rfl, rfl⟩
  · exact directionOf_zero
  · exact directionOf_one

/-- Settles O24: the two cases of the command, the accepted one with the sources and the direction its codes name. -/
theorem counterConfigInitialisesTheSlot : Obligations.CounterConfigInitialisesTheSlot := by
  refine ⟨fun h start inc stop aper rper hop =>
    decode_textless .cntConfig h [start, inc, stop, aper, rper] hop rfl rfl, ?_⟩
  intro rs asc stopEn dir start inc stop aper rper s
  rcases exec_cntConfig_cases rs asc stopEn dir start inc stop aper rper s with
    ⟨hbad, hexec⟩ | ⟨r, a, d, hsources, hdir, hexec⟩
  · refine ⟨fun _ => hexec, fun r a d hr ha hne hd => ?_⟩
    rw [(configSources_eq_some_iff rs asc r a).2 ⟨hr, ha, hne⟩, directionOf_of_code hd] at hbad
    simp at hbad
  · obtain ⟨hr, ha, hne⟩ := (configSources_eq_some_iff rs asc r a).1 hsources
    refine ⟨fun hbad => ?ignored, fun r' a' d' hr' ha' _ hd' => ?accepted⟩
    case ignored =>
      rcases hbad with hgt | hgt | ⟨h0, h1⟩ | rfl
      · omega
      · omega
      · simp [directionOf_of_ne h0 h1] at hdir
      · exact absurd (Fin.ext (ha.symm.trans hr)) hne
    case accepted =>
      obtain rfl : r = r' := Fin.ext (hr.symm.trans hr')
      obtain rfl : a = a' := Fin.ext (ha.symm.trans ha')
      obtain rfl : d = d' := Option.some.inj (hdir.symm.trans (directionOf_of_code hd'))
      rw [hexec, bindSources_eq]
      simp [State.setCounter, State.setActive, State.setBinding]

/-! ## The controls and the reads (R174-R184) -/

/-- Settles O26: the decoder run on the headers, and the meanings themselves. -/
theorem counterPauseControls : Obligations.CounterPauseControls :=
  ⟨fun h => ⟨fun hop => decode_textless .cntPause h [] hop rfl rfl,
      fun hop => decode_textless .cntResume h [] hop rfl rfl, fun hop => decode_textless .cntToggle h [] hop rfl rfl⟩,
    fun _ => ⟨rfl, rfl, rfl⟩⟩

/-- Settles O27: the decoder run on the words, and the meanings themselves. -/
theorem counterResetAndSetCount : Obligations.CounterResetAndSetCount :=
  ⟨fun h v => ⟨fun hop => decode_textless .cntReset h [] hop rfl rfl,
      fun hop => decode_textless .cntSetCount h [v] hop rfl rfl⟩,
    fun _ _ => ⟨rfl, rfl⟩⟩

/-- A recognized direction code writes C_DIR (R180). -/
theorem exec_cntSetDir_of_some {code : Byte} {d : Direction} (h : directionOf code = some d) (s : State) :
    exec (.cntSetDir code) s = .next (s.setCounter { s.counter with dir := d }) := by
  simp only [exec, execCntSetDir, h]

/-- An unrecognized direction code is ignored (R180). -/
theorem exec_cntSetDir_of_none {code : Byte} (h : directionOf code = none) (s : State) :
    exec (.cntSetDir code) s = .next s := by
  simp only [exec, execCntSetDir, h, ignore]

/-- Settles O28: CNT_SET_DIR by what its code names. -/
theorem counterSetIncrementAndDirection : Obligations.CounterSetIncrementAndDirection := by
  refine ⟨fun h v => ⟨fun hop => decode_textless .cntSetInc h [v] hop rfl rfl,
    fun hop => decode_textless .cntSetDir h [] hop rfl rfl⟩, fun s v dc => ⟨rfl, ?increase, ?decrease, ?ignored⟩⟩
  case increase =>
    rintro rfl
    exact exec_cntSetDir_of_some directionOf_zero s
  case decrease =>
    rintro rfl
    exact exec_cntSetDir_of_some directionOf_one s
  case ignored =>
    intro hgt
    refine exec_cntSetDir_of_none (directionOf_of_ne ?_ ?_) s <;> rintro rfl <;> exact absurd hgt (by decide)

theorem setStopPause_eq_ite (v cur : Word) : setStopPause v cur = if v = cur then true else false := by
  by_cases h : v = cur <;> simp [setStopPause, h]

/-- Settles O29: the decoder run on the words, and the pause as the comparison with the raw count. -/
theorem counterStopValue : Obligations.CounterStopValue := by
  refine ⟨fun h v => ⟨fun hop => decode_textless .cntSetStop h [v] hop rfl rfl,
    fun hop => decode_textless .cntClearStop h [] hop rfl rfl⟩, fun s v => ⟨?_, rfl⟩⟩
  rw [← setStopPause_eq_ite]
  rfl

/-- Settles O30: the decoder run on the headers, and the meanings themselves. -/
theorem counterReadsEmitOneResponse : Obligations.CounterReadsEmitOneResponse :=
  ⟨fun h => ⟨fun hop => decode_textless .cntReadNorm h [] hop rfl rfl,
      fun hop => decode_textless .cntReadRaw h [] hop rfl rfl⟩,
    fun _ => ⟨rfl, rfl⟩⟩

/-! ## Who clears the pause (R188) -/

/-- No tick moves a paused counter: only the counting tick writes the slot, and it skips a paused one (R171). -/
theorem tickWith_counter_of_paused (P : Config.Params) (code : SourceCode) {s : State} (hp : s.counter.pause = true) :
    (tickWith P code s).counter = s.counter := by
  obtain ⟨hother, -, -⟩ := tickWith_onlySlotOf P code s
  by_cases hactive : s.binding.active = .counter
  · rcases tickWith_cases P code s with ⟨_, -, -, h⟩ | ⟨_, -, -, -, h⟩ | ⟨-, h⟩ <;> rw [h]
    · rfl
    · simp only [animationTick, hactive]
      exact counterTick_of_paused hp
  · exact hother hactive

/-- Of the commands only five controls and an accepted CNT_CONFIG clear the pause (R188). -/
theorem CommandStep.clears_pause {s t : State} {i : Instr} (h : CommandStep s i t) (hp : s.counter.pause = true)
    (hclear : t.counter.pause = false) :
    i = .cntResume ∨ i = .cntToggle ∨ i = .cntReset ∨ (∃ v, i = .cntSetCount v) ∨
      (∃ v, i = .cntSetStop v ∧ v ≠ s.counter.cur) ∨
      ∃ rs asc stopEn dir start inc stop aper rper,
        i = .cntConfig rs asc stopEn dir start inc stop aper rper ∧ t.binding.active = .counter := by
  cases h with
  | counter _ _ clears => exact (clears hp hclear).imp_right (.imp_right (.imp_right (.imp_right .inl)))
  | cntConfig => exact .inr (.inr (.inr (.inr (.inr ⟨_, _, _, _, _, _, _, _, _, rfl, rfl⟩))))
  | _ => exact absurd (hp.symm.trans hclear) (by decide)

/-- Settles O34: ticks keep a paused slot, so the pause is cleared by a reset or one of the named commands. -/
theorem pausedCounterStaysUntilResumed : Obligations.PausedCounterStaysUntilResumed := by
  intro s hp
  refine ⟨fun code => ⟨_, rfl, tickWith_counter_of_paused blockParams code hp⟩, fun e t h hclear => ?_⟩
  rcases deliver_cases h with ⟨hreset, -⟩ | ⟨code, -, rfl⟩ | rfl | ⟨ws, i, hcmd, hdecode, -, -, hstep⟩
  · exact .inl hreset
  · rw [tickWith_counter_of_paused blockParams code hp, hp] at hclear
    cases hclear
  · exact absurd (hp.symm.trans hclear) (by decide)
  · refine .inr ⟨ws, hcmd, ?_⟩
    simp only [hdecode, Except.ok.injEq]
    exact hstep.clears_pause hp hclear

end Sys2Proof.Machine
end

section
/-! SUPPORT. The statements about the carousel (43_carousel.md): CAR_CONFIG and the controls from their words, the
transition tick, and the windows that a run of ticks shows, continuous and one-shot (R210-R218). -/

namespace Sys2Proof

/-- A command of a text opcode, from any header with that OP: two periods, then the words of the text (R88). -/
theorem decode_textConfig (op : Op) (h aper rper : Word) (ws : List Word) (hop : h.extractLsb' 0 8 = op.code)
    (hlen : ws.length = textWords (headerB3 h).toNat) (htext : op.hasText = true) :
    decode (h :: aper :: rper :: ws) = .ok (assemble op h (aper :: rper :: ws)) := by
  have hop' : Op.ofCode (headerOp h) = some op := by
    rw [show headerOp h = op.code from hop, Op.ofCode_code]
  rw [decode_cons hop', if_pos]
  simp only [commandLength, fixedPayload_of_hasText htext, htext, List.length_cons, hlen, if_true]
  omega

end Sys2Proof

namespace Sys2Proof.Machine

/-! ## The working buffer (R210) -/

theorem carBuild_fst (text : List Byte) (cont pad : Bool) :
    (carBuild text cont pad).1 =
      if pad then blanks 4 ++ text ++ (if cont then [] else blanks 4) else text ++ blanks 1 := by
  cases pad <;> rfl

theorem carBuild_snd (text : List Byte) (cont pad : Bool) :
    (carBuild text cont pad).2 = if pad then text.length + 4 else text.length + 1 := by
  cases pad <;> rfl

/-- K_LEN of a configured carousel (R41, R210). -/
theorem carConfigured_len_toNat_eq_ite (c : Carousel) {text : List Byte} (cont pad : Bool) (hl : text.length ≤ 248) :
    (carConfigured c text cont pad).len.toNat = if pad then text.length + 4 else text.length + 1 :=
  (carConfigured_len_toNat c cont pad hl).trans (carBuild_snd text cont pad)

theorem carConfigured_len_toNat_le (c : Carousel) {text : List Byte} (cont pad : Bool) (hl : text.length ≤ 248) :
    (carConfigured c text cont pad).len.toNat ≤ 252 := by
  rw [carConfigured_len_toNat_eq_ite c cont pad hl]
  split <;> omega

/-! ## CAR_CONFIG and the controls (R211, R214-R217) -/

/-- A bad source code, equal sources or a text above TEXT_CAP: the configure is ignored (R211). -/
theorem exec_carConfig_of_rejected {rs asc : SourceCode} {text : List Byte}
    (hbad : 4 < rs.toNat ∨ 4 < asc.toNat ∨ 248 < text.length ∨ asc = rs) (cont pad : Bool) (aper rper : Word)
    (s : State) : exec (.carConfig rs asc cont pad aper rper text) s = .next s := by
  rcases exec_carConfig_cases rs asc cont pad aper rper text s with ⟨-, hexec⟩ | ⟨r, a, hsources, hlen, -⟩
  · exact hexec
  · obtain ⟨hr, ha, hne⟩ := (configSources_eq_some_iff rs asc r a).1 hsources
    rcases hbad with hgt | hgt | hgt | rfl
    · omega
    · omega
    · omega
    · exact absurd (Fin.ext (ha.symm.trans hr)) hne

/-- An accepted configure, with the sources its codes name (R211). -/
theorem exec_carConfig_of_accepted {rs asc : SourceCode} {r a : Source} {text : List Byte} (hr : rs.toNat = r.val)
    (ha : asc.toNat = a.val) (hne : a ≠ r) (hlen : text.length ≤ 248) (cont pad : Bool) (aper rper : Word) (s : State) :
    exec (.carConfig rs asc cont pad aper rper text) s =
      .next (bindSources r rper (some a) aper
        (((s.setCarousel (carConfigured s.carousel text cont pad)).setDbuf
          (carWindow s.epoch (carConfigured s.carousel text cont pad) 0)).setActive .carousel)) := by
  have hsources := (configSources_eq_some_iff rs asc r a).2 ⟨hr, ha, hne⟩
  rcases exec_carConfig_cases rs asc cont pad aper rper text s with ⟨hbad, -⟩ | ⟨r', a', hsources', -, hexec⟩
  · simp [hsources, Nat.not_lt.2 hlen] at hbad
  · obtain ⟨rfl, rfl⟩ : r = r' ∧ a = a' := by simpa [hsources] using hsources'
    exact hexec

/-- Settles O35: the two cases of the command, the accepted one with the buffer written from entry 0 and the window read
at index 0. -/
theorem carouselConfigPrimesTheWindow : Obligations.CarouselConfigPrimesTheWindow := by
  refine ⟨fun h aper rper ws hop hlen => ⟨_, length_unpackText _ _,
    decode_textConfig .carConfig h aper rper ws hop hlen rfl⟩, fun rs asc cont pad aper rper text s =>
      ⟨fun hbad => exec_carConfig_of_rejected hbad cont pad aper rper s, fun r a hr ha hne hlen => ?accepted⟩⟩
  case accepted =>
    intro b4 w len
    have hw : (carBuild text cont pad).1 = w := carBuild_fst text cont pad
    have hl : (carBuild text cont pad).2 = len := carBuild_snd text cont pad
    refine ⟨Memory.writeFrom s.carousel.buf 0 w, carWindow s.epoch (carConfigured s.carousel text cont pad) 0, ?state,
      fun j => ?buffer, fun k => ?window⟩
    case state =>
      rw [exec_carConfig_of_accepted hr ha hne hlen, bindSources_eq]
      simp [State.setCarousel, State.setDbuf, State.setActive, State.setDisplay, State.setBinding, carConfigured, hw, hl]
    case buffer => simp [Memory.read?_writeFrom]
    case window =>
      have hread := carChar_configured s.epoch s.carousel _ text cont pad hlen rfl rfl 0 k.val
      rwa [hw, hl, Nat.zero_add, Int.natCast_zero, ← carWindow_get] at hread

/-- Settles O37: the decoder run on the headers, and the meanings themselves. -/
theorem carouselControls : Obligations.CarouselControls :=
  ⟨fun h => ⟨fun hop => decode_textless .carPause h [] hop rfl rfl,
      fun hop => decode_textless .carResume h [] hop rfl rfl, fun hop => decode_textless .carToggle h [] hop rfl rfl,
      fun hop => decode_textless .carRestart h [] hop rfl rfl⟩,
    fun _ => ⟨rfl, rfl, rfl, rfl⟩⟩

/-! ## The transition tick (R212, R213) -/

/-- The window that a transition tick shows: it is read after the advance (R212). -/
def tickWindow (epoch : Nat) (c : Carousel) : Window := carWindow epoch c (s16 (carAdvance c))

theorem carTick_of_len_ne_zero {s : State} (h : s.carousel.len ≠ 0) :
    carTick s = (s.setDbuf (tickWindow s.epoch s.carousel)).setCarousel (carouselTick s.carousel) :=
  if_neg h

/-- The dispatch of a transition tick (R275). -/
theorem tickWith_carousel {P : Config.Params} {s : State} {code : SourceCode} {src : Source}
    (hcode : code.toNat = src.val) (hr : s.binding.rsrc ≠ some src) (ha : s.binding.asrc = some src)
    (hactive : s.binding.active = .carousel) : tickWith P code s = carTick s := by
  rw [tickWith_animation hcode hr ha, animationTick, hactive]

theorem carAdvance_eq_ite (c : Carousel) :
    carAdvance c = if c.ovf = false ∧ c.pause = false then c.idx + 1 else c.idx := by
  simp [carAdvance]

/-- Both checks of a transition tick as R212 words them. -/
theorem carouselTick_eq_ite (c : Carousel) :
    carouselTick c = { c with
      idx := if c.cont = true ∧ (c.len.toNat : Int) ≤ s16 (carAdvance c) then -1 else carAdvance c
      ovf := if c.cont = false ∧ max ((c.len.toNat : Int) - 4) 0 ≤ s16 (carAdvance c) then true else c.ovf } := by
  cases hc : c.cont with
  | true => simp [carouselTick_of_cont hc, hc]
  | false =>
    rw [carouselTick_of_once hc, carLast]
    by_cases hlast : max ((c.len.toNat : Int) - 4) 0 ≤ s16 (carAdvance c) <;> simp [hlast, hc]

/-- Settles O36: the tick is dispatched to CAR_TICK, which shows a window and writes its slot. -/
theorem carouselTickScrolls : Obligations.CarouselTickScrolls := by
  intro s code src hcode hr ha hactive
  have hexec : exec (.tick code) s = .next (carTick s) :=
    congrArg Host.Outcome.next (tickWith_carousel hcode hr ha hactive)
  refine ⟨fun hlen => hexec.trans (congrArg _ (if_pos hlen)), fun hlen => ?_⟩
  rw [hexec, carTick_of_len_ne_zero hlen, carouselTick_eq_ite, ← carAdvance_eq_ite]
  exact ⟨tickWindow s.epoch s.carousel, rfl, carWindow_get _ _ _⟩

/-! ## Runs of ticks (R218) -/

theorem carouselTick_iterate_len (n : Nat) (c : Carousel) : (carouselTick^[n] c).len = c.len := by
  induction n with
  | zero => rfl
  | succ n ih => rw [Function.iterate_succ_apply', ← ih]; rfl

/-- What n transition ticks and any other ticks make of `s`: the slot has ticked n times, and once n > 0 the display
shows the window of the last one. -/
structure ScrolledTimes (s : State) (n : Nat) (t : State) : Prop where
  /-- No tick rebinds (R31). -/
  binding : t.binding = s.binding
  /-- No tick is a reset. -/
  epoch : t.epoch = s.epoch
  /-- Only a transition tick writes the slot (R154, R275). -/
  carousel : t.carousel = carouselTick^[n] s.carousel
  /-- Only a transition tick writes the display buffer (R154). -/
  dbuf : ∀ m, n = m + 1 → t.display.dbuf = tickWindow s.epoch (carouselTick^[m] s.carousel)

theorem ScrolledTimes.zero (s : State) : ScrolledTimes s 0 s := ⟨rfl, rfl, rfl, nofun⟩

theorem ScrolledTimes.carTick {s t : State} {n : Nat} (h : ScrolledTimes s n t) (hlen : s.carousel.len ≠ 0) :
    ScrolledTimes s (n + 1) (carTick t) := by
  have hlen' : t.carousel.len ≠ 0 := by rwa [h.carousel, carouselTick_iterate_len]
  rw [carTick_of_len_ne_zero hlen', h.carousel, h.epoch]
  refine ⟨h.binding, h.epoch, (Function.iterate_succ_apply' carouselTick n s.carousel).symm, fun m hm => ?_⟩
  obtain rfl : n = m := by omega
  rfl

/-- From a carousel that is active, bound and not empty, a list of ticks scrolls once for each tick of the transition
source. -/
theorem scrolledTimes_ticks {s : State} {code : SourceCode} {a : Source} (hcode : code.toNat = a.val)
    (hr : s.binding.rsrc ≠ some a) (ha : s.binding.asrc = some a) (hactive : s.binding.active = .carousel)
    (hlen : s.carousel.len ≠ 0) (codes : List SourceCode) :
    ScrolledTimes s (codes.count code) (codes.foldl (fun u c => tickWith blockParams c u) s) := by
  rw [← Nat.zero_add (codes.count code)]
  refine ticks_induction (ScrolledTimes s) code ?hit ?miss codes 0 s (.zero s)
  case hit =>
    intro n t h
    rw [tickWith_carousel hcode (h.binding ▸ hr) (h.binding ▸ ha) (h.binding ▸ hactive)]
    exact h.carTick hlen
  case miss =>
    intro n t c hc h
    rcases tickWith_cases blockParams c t with ⟨_, -, -, ht⟩ | ⟨src, hcode', -, ha', -⟩ | ⟨-, ht⟩
    · rw [ht]
      exact ⟨h.binding, h.epoch, h.carousel, h.dbuf⟩
    · obtain rfl : a = src := Option.some.inj (ha.symm.trans (h.binding ▸ ha'))
      exact absurd (BitVec.eq_of_toNat_eq (hcode'.trans hcode.symm)) hc
    · rwa [ht]

/-- An accepted configure and then a list of ticks with m + 1 of the transition source. -/
theorem run_ticks_of_carConfig {rs asc : SourceCode} (hrs : rs.toNat < 5) (hasc : asc.toNat < 5) (hne : rs ≠ asc)
    {text : List Byte} (hlen : text.length ≤ 248) (cont pad : Bool) (aper rper : Word) (s : State)
    {codes : List SourceCode} {m : Nat} (hm : codes.count asc = m + 1) :
    ∃ s₀ t, exec (.carConfig rs asc cont pad aper rper text) s = .next s₀ ∧
      Sys2Proof.core.run codes.length (s₀.setInbox (codes.map .tick)) = .next t ∧
      t.carousel = carouselTick^[m + 1] (carConfigured s.carousel text cont pad) ∧
      t.display.dbuf = tickWindow s.epoch (carouselTick^[m] (carConfigured s.carousel text cont pad)) := by
  obtain ⟨r, hr⟩ : ∃ r : Source, rs.toNat = r.val := ⟨⟨rs.toNat, hrs⟩, rfl⟩
  obtain ⟨a, ha⟩ : ∃ a : Source, asc.toNat = a.val := ⟨⟨asc.toNat, hasc⟩, rfl⟩
  have hdiffer : a ≠ r := by
    rintro rfl
    exact hne (BitVec.eq_of_toNat_eq (hr.trans ha.symm))
  obtain ⟨s₀, hexec, hslot, hepoch, hbinding⟩ : ∃ s₀, exec (.carConfig rs asc cont pad aper rper text) s = .next s₀ ∧
      s₀.carousel = carConfigured s.carousel text cont pad ∧ s₀.epoch = s.epoch ∧
      s₀.binding = { active := .carousel, rsrc := some r, rper := rper, asrc := some a, aper := aper } :=
    ⟨_, exec_carConfig_of_accepted hr ha hdiffer hlen cont pad aper rper s, rfl, rfl, rfl⟩
  have hticks := scrolledTimes_ticks ha (by simp [hbinding, hdiffer.symm]) (by rw [hbinding]) (by rw [hbinding])
    (hslot ▸ carConfigured_len_ne_zero s.carousel cont pad hlen) codes
  rw [hm] at hticks
  refine ⟨s₀, _, hexec, run_ticks codes s₀, ?_⟩
  rw [← hslot, ← hepoch]
  exact ⟨hticks.carousel, hticks.dbuf m rfl⟩

/-! ## The slot after n transition ticks (R218) -/

theorem s16_ofNat {i : Nat} (h : i < 32768) : s16 (BitVec.ofNat 16 i) = i := by
  have hnat : (BitVec.ofNat 16 i).toNat = i := by rw [BitVec.toNat_ofNat, Nat.mod_eq_of_lt (by omega)]
  rw [s16, BitVec.toInt_eq_toNat_of_lt (by omega), hnat]

/-- The slot with the index at i - 1, where the next advance takes it to i, and with K_OVF as given. -/
def Carousel.scrolled (c : Carousel) (i : Nat) (ovf : Bool) : Carousel :=
  { c with idx := BitVec.ofNat 16 i - 1, ovf := ovf }

theorem carConfigured_eq_scrolled (c : Carousel) (text : List Byte) (cont pad : Bool) :
    carConfigured c text cont pad = (carConfigured c text cont pad).scrolled 0 false := rfl

/-- The advance of an unpaused carousel that is not at its terminal index. -/
theorem carAdvance_scrolled {c : Carousel} (hpause : c.pause = false) (i : Nat) :
    carAdvance (c.scrolled i false) = BitVec.ofNat 16 i := by
  simp [carAdvance, Carousel.scrolled, hpause]

/-- At the terminal index the advance is suppressed (R212). -/
theorem carAdvance_scrolled_succ (c : Carousel) (i : Nat) :
    carAdvance (c.scrolled (i + 1) true) = BitVec.ofNat 16 i := by
  simp [carAdvance, Carousel.scrolled, BitVec.ofNat_add]

/-- What a window of a scrolled carousel reads, once its advance is known. -/
theorem tickWindow_scrolled (epoch : Nat) (c : Carousel) {text : List Byte} (cont pad : Bool)
    (hlen : text.length ≤ 248) {i j : Nat} {ovf : Bool} (hj : j < 32768)
    (hadv : carAdvance ((carConfigured c text cont pad).scrolled i ovf) = BitVec.ofNat 16 j) (k : Fin 4) :
    some (tickWindow epoch ((carConfigured c text cont pad).scrolled i ovf))[k] =
      (carBuild text cont pad).1[(j + k.val) % (carBuild text cont pad).2]? := by
  rw [tickWindow, hadv, s16_ofNat hj, carWindow_get]
  exact carChar_configured epoch c _ text cont pad hlen rfl rfl j k.val

section Continuous

variable {c : Carousel} (hcont : c.cont = true) (hpause : c.pause = false) (hlen : c.len.toNat ≤ 252)
include hcont hpause hlen

/-- A continuous carousel goes through L + 1 places. -/
theorem carouselTick_scrolled_of_cont {i : Nat} (hi : i ≤ c.len.toNat) :
    carouselTick (c.scrolled i false) = c.scrolled ((i + 1) % (c.len.toNat + 1)) false := by
  have hcont' : (c.scrolled i false).cont = true := hcont
  rw [carouselTick_of_cont hcont', carAdvance_scrolled hpause, s16_ofNat (by omega)]
  rcases Nat.eq_or_lt_of_le hi with rfl | hlt
  · simp [Carousel.scrolled]
  · rw [Nat.mod_eq_of_lt (by omega)]
    simp [Carousel.scrolled, BitVec.ofNat_add, hlt]

theorem carouselTick_iterate_of_cont (n : Nat) :
    carouselTick^[n] (c.scrolled 0 false) = c.scrolled (n % (c.len.toNat + 1)) false := by
  induction n with
  | zero => rw [Nat.zero_mod]; rfl
  | succ n ih =>
    have hle : n % (c.len.toNat + 1) ≤ c.len.toNat := Nat.le_of_lt_succ (Nat.mod_lt n (Nat.succ_pos _))
    rw [Function.iterate_succ_apply', ih, carouselTick_scrolled_of_cont hcont hpause hlen hle, Nat.mod_add_mod]

end Continuous

/-- The slot of a one-shot carousel after n transition ticks: K_OVF is set on the tick to the terminal index L - 4, and
the index stays there. -/
def Carousel.onceAfter (c : Carousel) (n : Nat) : Carousel :=
  c.scrolled (min n (c.len.toNat - 4 + 1)) (decide (c.len.toNat - 4 + 1 ≤ n))

section OneShot

variable {c : Carousel} (hcont : c.cont = false) (hpause : c.pause = false) (hlen : c.len.toNat ≤ 252)

include hpause in
theorem carAdvance_onceAfter (n : Nat) : carAdvance (c.onceAfter n) = BitVec.ofNat 16 (min n (c.len.toNat - 4)) := by
  unfold Carousel.onceAfter
  by_cases hn : c.len.toNat - 4 + 1 ≤ n
  · rw [decide_eq_true hn, Nat.min_eq_right hn, carAdvance_scrolled_succ, Nat.min_eq_right (by omega)]
  · rw [decide_eq_false hn, carAdvance_scrolled hpause, Nat.min_eq_left (by omega), Nat.min_eq_left (by omega)]

include hcont hpause hlen

/-- One more tick: the index moves on below the terminal index, and K_OVF is set on reaching it. -/
theorem carouselTick_onceAfter (n : Nat) : carouselTick (c.onceAfter n) = c.onceAfter (n + 1) := by
  have hidx : BitVec.ofNat 16 (min (n + 1) (c.len.toNat - 4 + 1)) - 1 = BitVec.ofNat 16 (min n (c.len.toNat - 4)) := by
    rw [Nat.add_min_add_right, BitVec.ofNat_add]
    exact BitVec.add_sub_cancel _ _
  have hovf : (decide (c.len.toNat - 4 + 1 ≤ n) || decide (carLast c ≤ (min n (c.len.toNat - 4) : Nat))) =
      decide (c.len.toNat - 4 + 1 ≤ n + 1) := by
    rw [← Bool.decide_or, decide_eq_decide, carLast]
    omega
  have hcont' : (c.onceAfter n).cont = false := hcont
  rw [carouselTick_of_once hcont', carAdvance_onceAfter hpause, s16_ofNat (by omega), ← hidx]
  exact congrArg (c.scrolled (min (n + 1) (c.len.toNat - 4 + 1))) hovf

theorem carouselTick_iterate_of_once (n : Nat) : carouselTick^[n] (c.scrolled 0 false) = c.onceAfter n := by
  induction n with
  | zero => simp [Carousel.onceAfter]
  | succ n ih => rw [Function.iterate_succ_apply', ih, carouselTick_onceAfter hcont hpause hlen]

end OneShot

/-- Settles O38: the slot goes through L + 1 places, and a tick shows the window of the place it leaves. -/
theorem continuousCarouselWindows : Obligations.ContinuousCarouselWindows := by
  intro rs asc pad aper rper text s codes hrs hasc hne htext w len n hn
  have hm : codes.count asc = n - 1 + 1 := (Nat.sub_add_cancel hn).symm
  obtain ⟨s₀, t, hexec, hrun, -, hdbuf⟩ := run_ticks_of_carConfig hrs hasc hne htext true pad aper rper s hm
  have hle := carConfigured_len_toNat_le s.carousel true pad htext
  have hlen : _ = len := carConfigured_len_toNat_eq_ite s.carousel true pad htext
  have hplace : (n - 1) % (len + 1) < len + 1 := Nat.mod_lt _ (Nat.succ_pos len)
  rw [carConfigured_eq_scrolled, carouselTick_iterate_of_cont rfl rfl hle, hlen] at hdbuf
  refine ⟨s₀, t, hexec, hrun, fun k => ?_⟩
  rw [hdbuf, tickWindow_scrolled s.epoch s.carousel true pad htext (by omega) (carAdvance_scrolled rfl _), carBuild_snd]

/-- Settles O39: K_OVF is set on the tick to the terminal index, and the slot stays there. -/
theorem oneShotCarouselWindows : Obligations.OneShotCarouselWindows := by
  intro rs asc pad aper rper text s codes hrs hasc hne htext w len n hn
  have hm : codes.count asc = n - 1 + 1 := (Nat.sub_add_cancel hn).symm
  obtain ⟨s₀, t, hexec, hrun, hslot, hdbuf⟩ := run_ticks_of_carConfig hrs hasc hne htext false pad aper rper s hm
  have hle := carConfigured_len_toNat_le s.carousel false pad htext
  have hlen : _ = len := carConfigured_len_toNat_eq_ite s.carousel false pad htext
  rw [carConfigured_eq_scrolled, carouselTick_iterate_of_once rfl rfl hle] at hslot hdbuf
  refine ⟨s₀, t, hexec, hrun, fun k => ?window, ?overflow⟩
  case window =>
    have hadvance := carAdvance_onceAfter (c := carConfigured s.carousel text false pad) rfl (n - 1)
    rw [hdbuf, Carousel.onceAfter, tickWindow_scrolled s.epoch s.carousel false pad htext (by omega) hadvance,
      carBuild_snd, hlen]
  case overflow =>
    rw [hslot, Nat.sub_add_cancel hn, ← hlen]
    rfl

end Sys2Proof.Machine
end

section
/-! SUPPORT. The statements about the slider (44_slider.md): what the collapse drops, SLD_CONFIG and the controls from
their words, the transition tick, and the pages that a run of ticks shows (R240-R250). -/

namespace Sys2Proof.Machine

/-! ## The collapse (R240) -/

theorem map_getD_range_length (text : List Byte) : (List.range text.length).map (text.getD · 0) = text := by
  simpa using (append_replicate_eq_map_range (le_refl text.length) 0).symm

/-- The collapse as a choice of indices. -/
theorem collapse_eq_map_filter (text : List Byte) :
    collapse text = ((List.range text.length).filter fun i => !isolatedSpace text i).map (text.getD · 0) := by
  rw [collapse, ← List.filterMap_eq_map', List.filterMap_filter]
  refine List.filterMap_congr fun i _ => ?_
  cases isolatedSpace text i <;> rfl

theorem collapse_sublist (text : List Byte) : (collapse text).Sublist text := by
  conv_rhs => rw [← map_getD_range_length text]
  rw [collapse_eq_map_filter]
  exact List.filter_sublist.map _

theorem collapse_eq_self {text : List Byte} (h : ∀ i, i < text.length → isolatedSpace text i = false) :
    collapse text = text := by
  have hall : (List.range text.length).filter (fun i => !isolatedSpace text i) = List.range text.length :=
    List.filter_eq_self.2 fun i hi => by rw [h i (List.mem_range.1 hi)]; rfl
  rw [collapse_eq_map_filter, hall, map_getD_range_length]

/-- Only spaces are dropped. -/
theorem filter_collapseFrom (prevSpace : Bool) (cs : List Byte) :
    (collapseFrom prevSpace cs).filter (· != blank) = cs.filter (· != blank) := by
  induction cs generalizing prevSpace with
  | nil => rfl
  | cons c cs ih =>
    rw [collapseFrom]
    split
    case isTrue hdrop =>
      obtain rfl : c = blank := by simp_all
      rw [ih]
      rfl
    case isFalse => rw [List.filter_cons, List.filter_cons, ih]

/-- After a space the first character is kept, whatever it is. -/
theorem head?_collapseFrom_true (cs : List Byte) : (collapseFrom true cs).head? = cs.head? := by
  cases cs <;> simp [collapseFrom]

/-- No space that is kept becomes isolated: where the collapse drops a space, the next character is none, so it does not
matter that the character before it has changed. -/
theorem collapseFrom_collapseFrom {before prevSpace : Bool} {cs : List Byte}
    (h : before = prevSpace ∨ cs.head? ≠ some blank) :
    collapseFrom before (collapseFrom prevSpace cs) = collapseFrom prevSpace cs := by
  induction cs generalizing before prevSpace with
  | nil => rfl
  | cons c cs ih =>
    rw [collapseFrom]
    split
    case isTrue hdrop => exact ih (.inr (by simp_all))
    case isFalse hkeep =>
      have hstay : ¬(c == blank && !before && (collapseFrom (c == blank) cs).head? != some blank) = true := by
        by_cases hc : c = blank
        · subst hc
          obtain rfl : before = prevSpace := by simpa using h
          simpa [head?_collapseFrom_true] using hkeep
        · simp [hc]
      rw [collapseFrom, if_neg hstay, ih (.inl rfl)]

theorem collapse_collapse (text : List Byte) : collapse (collapse text) = collapse text := by
  simp only [collapse_eq_collapseFrom]
  exact collapseFrom_collapseFrom (.inl rfl)

/-- Settles O40: the indices kept are R240's, the subsequence and the unchanged text follow from the choice of indices,
the other clauses from the collapse read from left to right. -/
theorem collapseDropsOnlyIsolatedSpaces : Obligations.CollapseDropsOnlyIsolatedSpaces := by
  refine ⟨fun text => ⟨?indices, ?nonSpaces, collapse_sublist text, collapse_eq_self, collapse_collapse text⟩,
    ?workedText⟩
  case indices =>
    rw [collapse_eq_map_filter]
    refine congrArg (List.map _) (List.filter_congr fun i hi => ?_)
    rw [isolatedSpace_eq_decide text i (List.mem_range.1 hi)]
  case nonSpaces =>
    rw [collapse_eq_collapseFrom]
    exact filter_collapseFrom false text
  case workedText => exact ⟨by decide, by decide⟩

/-! ## SLD_CONFIG and the controls (R241, R242, R244-R247) -/

/-- The text as collapsed or not, between the lead pad and the fill (R241). -/
theorem sldBuild_eq_append (text : List Byte) (pad coll : Bool) :
    sldBuild text pad coll = (if pad then blanks 4 else []) ++ (if coll then collapse text else text) ++
      blanks (roundUp4 (if coll then collapse text else text).length - (if coll then collapse text else text).length) :=
  rfl

theorem roundUp4_sub_lt (m : Nat) : roundUp4 m - m < 4 := by
  rw [roundUp4]
  omega

theorem sldBuild_length_le {text : List Byte} (pad coll : Bool) (hl : text.length ≤ 248) :
    (sldBuild text pad coll).length ≤ 252 := by
  obtain ⟨-, hle⟩ := sldBuild_length text pad coll
  omega

/-- A bad source code, equal sources or a text above TEXT_CAP: the configure is ignored (R242). -/
theorem exec_sldConfig_of_rejected {rs asc : SourceCode} {text : List Byte}
    (hbad : 4 < rs.toNat ∨ 4 < asc.toNat ∨ 248 < text.length ∨ asc = rs) (cont pad coll : Bool) (aper rper : Word)
    (s : State) : exec (.sldConfig rs asc cont pad coll aper rper text) s = .next s := by
  rcases exec_sldConfig_cases rs asc cont pad coll aper rper text s with ⟨-, hexec⟩ | ⟨r, a, hsources, hlen, -⟩
  · exact hexec
  · obtain ⟨hr, ha, hne⟩ := (configSources_eq_some_iff rs asc r a).1 hsources
    rcases hbad with hgt | hgt | hgt | rfl
    · omega
    · omega
    · omega
    · exact absurd (Fin.ext (ha.symm.trans hr)) hne

/-- An accepted configure, with the sources its codes name (R242). -/
theorem exec_sldConfig_of_accepted {rs asc : SourceCode} {r a : Source} {text : List Byte} (hr : rs.toNat = r.val)
    (ha : asc.toNat = a.val) (hne : a ≠ r) (hlen : text.length ≤ 248) (cont pad coll : Bool) (aper rper : Word)
    (s : State) :
    exec (.sldConfig rs asc cont pad coll aper rper text) s =
      .next (bindSources r rper (some a) aper
        (((s.setSlider (sldConfigured s.slider text cont pad coll)).setDbuf
          (sldPage s.epoch (sldConfigured s.slider text cont pad coll) 0)).setActive .slider)) := by
  have hsources := (configSources_eq_some_iff rs asc r a).2 ⟨hr, ha, hne⟩
  rcases exec_sldConfig_cases rs asc cont pad coll aper rper text s with ⟨hbad, -⟩ | ⟨r', a', hsources', -, hexec⟩
  · simp [hsources, Nat.not_lt.2 hlen] at hbad
  · obtain ⟨rfl, rfl⟩ : r = r' ∧ a = a' := by simpa [hsources] using hsources'
    exact hexec

/-- Settles O41: the two cases of the command, the accepted one with the buffer written from entry 0 and page 0 read. -/
theorem sliderConfigPrimesTheFirstPage : Obligations.SliderConfigPrimesTheFirstPage := by
  refine ⟨fun h aper rper ws hop hlen => ⟨_, length_unpackText _ _,
    decode_textConfig .sldConfig h aper rper ws hop hlen rfl⟩, fun rs asc cont pad coll aper rper text s =>
      ⟨fun hbad => exec_sldConfig_of_rejected hbad cont pad coll aper rper s, fun r a hr ha hne hlen => ?accepted⟩⟩
  case accepted =>
    intro b4 body
    obtain ⟨hpages, -⟩ := sldBuild_length text pad coll
    refine ⟨Memory.writeFrom s.slider.buf 0 (sldBuild text pad coll),
      sldPage s.epoch (sldConfigured s.slider text cont pad coll) 0, sldBuild text pad coll,
      roundUp4 body.length - body.length, sldBuild_eq_append text pad coll, roundUp4_sub_lt _, hpages,
      sldBuild_length_le pad coll hlen, ?state, fun j => ?buffer, fun k => ?page⟩
    case state =>
      rw [exec_sldConfig_of_accepted hr ha hne hlen, bindSources_eq]
      simp [State.setSlider, State.setDbuf, State.setActive, State.setDisplay, State.setBinding, sldConfigured]
    case buffer => simp [Memory.read?_writeFrom]
    case page =>
      rw [sldPage_get, Nat.zero_add]
      exact sldChar_configured s.epoch s.slider _ text cont pad coll hlen rfl rfl k.val

/-- Settles O43: the decoder run on the headers, and the meanings themselves. -/
theorem sliderControls : Obligations.SliderControls :=
  ⟨fun h => ⟨fun hop => decode_textless .sldPause h [] hop rfl rfl,
      fun hop => decode_textless .sldResume h [] hop rfl rfl, fun hop => decode_textless .sldToggle h [] hop rfl rfl,
      fun hop => decode_textless .sldRestart h [] hop rfl rfl⟩,
    fun _ => ⟨rfl, rfl, rfl, rfl⟩⟩

/-! ## The transition tick (R243, R250) -/

/-- The dispatch of a transition tick (R275). -/
theorem tickWith_slider {P : Config.Params} {s : State} {code : SourceCode} {src : Source}
    (hcode : code.toNat = src.val) (hr : s.binding.rsrc ≠ some src) (ha : s.binding.asrc = some src)
    (hactive : s.binding.active = .slider) : tickWith P code s = sldTick s := by
  rw [tickWith_animation hcode hr ha, animationTick, hactive]

/-- The slot after a transition tick as R243 words it. -/
theorem sliderTick_eq_ite (l : Slider) :
    sliderTick l =
      if l.pause = true then l
      else if (l.len.toNat : Int) - 4 < l.page.toNat + 4 then
        (if l.cont = true then { l with page := 0 } else { l with pause := true })
      else { l with page := l.page + 4 } := by
  simp [sliderTick, pagePastEnd, BitVec.ofNat_add]

theorem sliderTick_of_paused {l : Slider} (h : l.pause = true) : sliderTick l = l := if_pos h

theorem exec_tick_slider {s : State} {code : SourceCode} {src : Source} (hcode : code.toNat = src.val)
    (hr : s.binding.rsrc ≠ some src) (ha : s.binding.asrc = some src) (hactive : s.binding.active = .slider) :
    exec (.tick code) s = .next (sldTick s) :=
  congrArg Host.Outcome.next (tickWith_slider hcode hr ha hactive)

/-- Settles O42: the tick is dispatched to SLD_TICK, which shows the page and writes its slot. -/
theorem sliderTickPages : Obligations.SliderTickPages := by
  intro s code src hcode hr ha hactive l
  refine ⟨sldPage s.epoch l l.page.toNat, ?state, sldPage_get s.epoch l l.page.toNat⟩
  case state =>
    rw [← sliderTick_eq_ite]
    exact exec_tick_slider hcode hr ha hactive

/-- On its last page a one-shot slider that has been resumed halts again. -/
theorem sliderTick_of_resumed {l : Slider} (hcont : l.cont = false) (hpause : l.pause = true)
    (hlast : l.page.toNat + 4 = l.len.toNat) : sliderTick { l with pause := false } = l := by
  have hpast : (l.len.toNat : Int) - 4 < l.page.toNat + 4 := by omega
  rw [sliderTick_eq_ite, if_neg Bool.false_ne_true, if_pos hpast, if_neg (by simp [hcont]), ← hpause]

/-- Settles O45: paused, the tick leaves the slot; resumed, the page has no successor and the slot halts again. -/
theorem oneShotSliderEndsOnItsLastPage : Obligations.OneShotSliderEndsOnItsLastPage := by
  intro s code src hcode hr ha hactive hcont hpause hlast page shown
  refine ⟨?paused, ⟨_, rfl, rfl, ?resumed⟩, _, rfl, rfl, rfl⟩
  case paused =>
    rw [exec_tick_slider hcode hr ha hactive, sldTick, sliderTick_of_paused hpause]
    rfl
  case resumed =>
    refine (exec_tick_slider (s := s.setSlider { s.slider with pause := false }) hcode hr ha hactive).trans ?_
    rw [sldTick, State.setSlider_slider, sliderTick_of_resumed hcont hpause hlast]
    rfl

/-! ## Runs of ticks (R248) -/

/-- P, the number of pages (R248). -/
def Slider.pages (l : Slider) : Nat := l.len.toNat / 4

/-- Which page a slider started on page 0 is on after n transition ticks: a continuous one goes round, a one-shot one
stops on its last. With no pages it stays at 0. -/
def Slider.indexAfter (l : Slider) (n : Nat) : Nat :=
  if l.cont then n % max l.pages 1 else min n (l.pages - 1)

/-- The slot of such a slider after n transition ticks. -/
def Slider.after (l : Slider) (n : Nat) : Slider :=
  { l with page := BitVec.ofNat 16 (4 * l.indexAfter n), pause := !l.cont && decide (max l.pages 1 ≤ n) }

theorem Slider.indexAfter_lt (l : Slider) (n : Nat) : l.indexAfter n < max l.pages 1 := by
  unfold Slider.indexAfter
  split
  · exact Nat.mod_lt n (by omega)
  · omega

theorem Slider.indexAfter_le (l : Slider) (n : Nat) : l.indexAfter n ≤ l.pages - 1 := by
  have := l.indexAfter_lt n
  omega

/-- One tick further: the next page, and from the last page back to page 0 or nowhere. -/
theorem Slider.indexAfter_succ (l : Slider) (n : Nat) :
    l.indexAfter (n + 1) =
      if l.pages ≤ l.indexAfter n + 1 then (if l.cont then 0 else l.indexAfter n) else l.indexAfter n + 1 := by
  have hlt := l.indexAfter_lt n
  cases hcont : l.cont with
  | true =>
    have hsucc : l.indexAfter (n + 1) = (l.indexAfter n + 1) % max l.pages 1 := by simp [Slider.indexAfter, hcont]
    rw [hsucc]
    split
    · next hlast => rw [show l.indexAfter n + 1 = max l.pages 1 by omega, Nat.mod_self, if_pos rfl]
    · exact Nat.mod_eq_of_lt (by omega)
  | false =>
    simp only [Slider.indexAfter, hcont, if_neg Bool.false_ne_true]
    split <;> omega

/-- A one-shot slider is paused by the tick that finds it on its last page. -/
theorem Slider.pages_le_succ_iff_of_once {l : Slider} (hcont : l.cont = false) (n : Nat) :
    l.pages ≤ l.indexAfter n + 1 ↔ max l.pages 1 ≤ n + 1 := by
  simp only [Slider.indexAfter, hcont, if_neg Bool.false_ne_true]
  omega

/-- A configured slider has not ticked yet. -/
theorem sldConfigured_after_zero (l : Slider) (text : List Byte) (cont pad coll : Bool) :
    (sldConfigured l text cont pad coll).after 0 = sldConfigured l text cont pad coll := by
  simp [Slider.after, Slider.indexAfter, sldConfigured]

section After

variable {l : Slider} (hle : l.len.toNat ≤ 252)
include hle

theorem Slider.after_page_toNat (n : Nat) : (l.after n).page.toNat = 4 * l.indexAfter n := by
  have hindex := l.indexAfter_le n
  have hpages : l.pages ≤ 63 := Nat.div_le_div_right hle
  show (BitVec.ofNat 16 (4 * l.indexAfter n)).toNat = _
  rw [BitVec.toNat_ofNat, Nat.mod_eq_of_lt (by omega)]

/-- One more tick: the next page below the last, and on the last one back to page 0 or the pause. -/
theorem Slider.sliderTick_after (hmod : l.len.toNat % 4 = 0) (n : Nat) : sliderTick (l.after n) = l.after (n + 1) := by
  have hend : ((l.after n).len.toNat : Int) - 4 < (l.after n).page.toNat + 4 ↔ l.pages ≤ l.indexAfter n + 1 := by
    rw [Slider.after_page_toNat hle, Slider.pages]
    show (l.len.toNat : Int) - 4 < _ ↔ _
    omega
  have hpage : (l.after n).page + 4 = BitVec.ofNat 16 (4 * (l.indexAfter n + 1)) := by
    rw [Nat.mul_add, BitVec.ofNat_add]
    rfl
  simp only [sliderTick_eq_ite, hend, hpage]
  cases hcont : l.cont with
  | true =>
    by_cases hlast : l.pages ≤ l.indexAfter n + 1 <;> simp [Slider.after, Slider.indexAfter_succ, hcont, hlast]
  | false =>
    have hhalts := Slider.pages_le_succ_iff_of_once hcont n
    by_cases hlast : l.pages ≤ l.indexAfter n + 1
    · simp [Slider.after, Slider.indexAfter_succ, hcont, hlast, hhalts.1 hlast]
    · have hruns : ¬max l.pages 1 ≤ n + 1 := fun h => hlast (hhalts.2 h)
      have hran : ¬max l.pages 1 ≤ n := fun h => hruns (h.trans n.le_succ)
      simp [Slider.after, Slider.indexAfter_succ, hcont, hlast, hruns, hran]

end After

/-- A tick that is not the animation source's refreshes or does nothing (R275, R276). -/
theorem tickWith_of_ne_animation {P : Config.Params} {code : SourceCode} {s : State} {a : Source}
    (ha : s.binding.asrc = some a) (hne : code.toNat ≠ a.val) :
    tickWith P code s = refreshWith P s ∨ tickWith P code s = s := by
  rcases tickWith_cases P code s with ⟨_, -, -, h⟩ | ⟨src, hcode, -, ha', -⟩ | ⟨-, h⟩
  · exact .inl h
  · obtain rfl : a = src := Option.some.inj (ha.symm.trans ha')
    exact absurd hcode hne
  · exact .inr h

/-- What n transition ticks and any other ticks make of `s`, whose slider `l` has not ticked yet: once n > 0 the display
shows the page before the last of them. -/
structure PagedTimes (s : State) (l : Slider) (n : Nat) (t : State) : Prop where
  /-- No tick rebinds (R31). -/
  binding : t.binding = s.binding
  /-- No tick is a reset. -/
  epoch : t.epoch = s.epoch
  /-- Only a transition tick writes the slot (R154, R275). -/
  slider : t.slider = l.after n
  /-- Only a transition tick writes the display buffer (R154). -/
  dbuf : ∀ m, n = m + 1 → t.display.dbuf = sldPage s.epoch l (4 * l.indexAfter m)

theorem PagedTimes.zero {s : State} {l : Slider} (h : s.slider = l.after 0) : PagedTimes s l 0 s :=
  ⟨rfl, rfl, h, nofun⟩

theorem PagedTimes.sldTick {s t : State} {l : Slider} {n : Nat} (h : PagedTimes s l n t) (hle : l.len.toNat ≤ 252)
    (hmod : l.len.toNat % 4 = 0) : PagedTimes s l (n + 1) (sldTick t) where
  binding := h.binding
  epoch := h.epoch
  slider := by
    rw [← Slider.sliderTick_after hle hmod, ← h.slider]
    rfl
  dbuf := fun m hm => by
    obtain rfl : n = m := by omega
    show sldPage t.epoch t.slider t.slider.page.toNat = _
    rw [h.epoch, h.slider, Slider.after_page_toNat hle]
    rfl

/-- A refresh writes nothing that a clause looks at. -/
theorem PagedTimes.refresh {s t : State} {l : Slider} {n : Nat} (h : PagedTimes s l n t) (P : Config.Params) :
    PagedTimes s l n (refreshWith P t) :=
  ⟨h.binding, h.epoch, h.slider, h.dbuf⟩

/-- From a slider that is active, bound and has not ticked yet, a list of ticks pages once for each tick of the
transition source. -/
theorem pagedTimes_ticks {s : State} {l : Slider} {code : SourceCode} {a : Source} (hcode : code.toNat = a.val)
    (hr : s.binding.rsrc ≠ some a) (ha : s.binding.asrc = some a) (hactive : s.binding.active = .slider)
    (hslot : s.slider = l.after 0) (hle : l.len.toNat ≤ 252) (hmod : l.len.toNat % 4 = 0) (codes : List SourceCode) :
    PagedTimes s l (codes.count code) (codes.foldl (fun u c => tickWith blockParams c u) s) := by
  rw [← Nat.zero_add (codes.count code)]
  refine ticks_induction (PagedTimes s l) code ?hit ?miss codes 0 s (.zero hslot)
  case hit =>
    intro n t h
    rw [tickWith_slider hcode (h.binding ▸ hr) (h.binding ▸ ha) (h.binding ▸ hactive)]
    exact h.sldTick hle hmod
  case miss =>
    intro n t c hc h
    have hother : c.toNat ≠ a.val := fun heq => hc (BitVec.eq_of_toNat_eq (heq.trans hcode.symm))
    rcases tickWith_of_ne_animation (P := blockParams) (h.binding ▸ ha) hother with ht | ht <;> rw [ht]
    · exact h.refresh blockParams
    · exact h

/-- An accepted configure and then a list of ticks with m + 1 of the transition source. -/
theorem run_ticks_of_sldConfig {rs asc : SourceCode} (hrs : rs.toNat < 5) (hasc : asc.toNat < 5) (hne : rs ≠ asc)
    {text : List Byte} (hlen : text.length ≤ 248) (cont pad coll : Bool) (aper rper : Word) (s : State)
    {codes : List SourceCode} {m : Nat} (hm : codes.count asc = m + 1) :
    ∃ s₀ t, exec (.sldConfig rs asc cont pad coll aper rper text) s = .next s₀ ∧
      Sys2Proof.core.run codes.length (s₀.setInbox (codes.map .tick)) = .next t ∧
      t.slider = (sldConfigured s.slider text cont pad coll).after (m + 1) ∧
      t.display.dbuf = sldPage s.epoch (sldConfigured s.slider text cont pad coll)
        (4 * (sldConfigured s.slider text cont pad coll).indexAfter m) := by
  obtain ⟨r, hr⟩ : ∃ r : Source, rs.toNat = r.val := ⟨⟨rs.toNat, hrs⟩, rfl⟩
  obtain ⟨a, ha⟩ : ∃ a : Source, asc.toNat = a.val := ⟨⟨asc.toNat, hasc⟩, rfl⟩
  have hdiffer : a ≠ r := by
    rintro rfl
    exact hne (BitVec.eq_of_toNat_eq (hr.trans ha.symm))
  obtain ⟨hmod, -⟩ := sldBuild_length text pad coll
  have hlen' := sldConfigured_len_toNat s.slider cont pad coll hlen
  obtain ⟨s₀, hexec, hslot, hepoch, hbinding⟩ :
      ∃ s₀, exec (.sldConfig rs asc cont pad coll aper rper text) s = .next s₀ ∧
        s₀.slider = sldConfigured s.slider text cont pad coll ∧ s₀.epoch = s.epoch ∧
        s₀.binding = { active := .slider, rsrc := some r, rper := rper, asrc := some a, aper := aper } :=
    ⟨_, exec_sldConfig_of_accepted hr ha hdiffer hlen cont pad coll aper rper s, rfl, rfl, rfl⟩
  have hticks := pagedTimes_ticks ha (by simp [hbinding, hdiffer.symm]) (by rw [hbinding]) (by rw [hbinding])
    (hslot.trans (sldConfigured_after_zero s.slider text cont pad coll).symm)
    (hlen' ▸ sldBuild_length_le pad coll hlen) (hlen' ▸ hmod) codes
  rw [hm] at hticks
  exact ⟨s₀, _, hexec, run_ticks codes s₀, hticks.slider, hepoch ▸ hticks.dbuf m rfl⟩

theorem sldConfigured_pages (l : Slider) {text : List Byte} (cont pad coll : Bool) (hl : text.length ≤ 248) :
    (sldConfigured l text cont pad coll).pages = (sldBuild text pad coll).length / 4 :=
  congrArg (· / 4) (sldConfigured_len_toNat l cont pad coll hl)

/-- The page a run shows is R248's: with no pages both read past the end of an empty working buffer. -/
theorem getD_sldBuild_indexAfter (l : Slider) {text : List Byte} (cont pad coll : Bool) (hl : text.length ≤ 248)
    (n k : Nat) :
    (sldBuild text pad coll).getD (4 * (sldConfigured l text cont pad coll).indexAfter n + k) 0x20 =
      (sldBuild text pad coll).getD
        (4 * (if cont then n % ((sldBuild text pad coll).length / 4)
          else min n ((sldBuild text pad coll).length / 4 - 1)) + k) 0x20 := by
  obtain ⟨hmod, -⟩ := sldBuild_length text pad coll
  have hcont : (sldConfigured l text cont pad coll).cont = cont := rfl
  rw [Slider.indexAfter, sldConfigured_pages l cont pad coll hl, hcont]
  rcases Nat.eq_zero_or_pos ((sldBuild text pad coll).length / 4) with hnone | hsome
  · have hempty : sldBuild text pad coll = [] := List.eq_nil_of_length_eq_zero (by omega)
    simp [hempty]
  · rw [Nat.max_eq_left hsome]

/-- Settles O44: the slot after n ticks is `after n`, and tick n shows the page after n - 1 of them. -/
theorem sliderPages : Obligations.SliderPages := by
  intro rs asc cont pad coll aper rper text s codes hrs hasc hne htext w pages n hn
  have hm : codes.count asc = n - 1 + 1 := (Nat.sub_add_cancel hn).symm
  obtain ⟨s₀, t, hexec, hrun, hslot, hdbuf⟩ :=
    run_ticks_of_sldConfig hrs hasc hne htext cont pad coll aper rper s hm
  refine ⟨s₀, t, hexec, hrun, fun k => ?page, ?pause⟩
  case page =>
    rw [hdbuf, sldPage_get, sldChar_configured s.epoch s.slider _ text cont pad coll htext rfl rfl]
    exact getD_sldBuild_indexAfter s.slider cont pad coll htext (n - 1) k.val
  case pause =>
    rw [hslot, Slider.after, sldConfigured_pages s.slider cont pad coll htext, Nat.sub_add_cancel hn]
    rfl

end Sys2Proof.Machine
end

section
/-! SUPPORT. The statements about the scheduler (45_scheduler.md): the configures and ticks that are ignored (R273-R276),
what an event appends to the output trace (R271, R272), and the order of simultaneous ticks (R298). -/

namespace Sys2Proof.Machine

/-! ## What is ignored (R273-R276) -/

/-- Settles O46: such codes give a configure no pair of sources, and a bad refresh code alone gives SHOW_STATIC none. -/
theorem conflictingSourcesAreIgnored : Obligations.ConflictingSourcesAreIgnored := by
  intro rs asc s h
  have hnone : configSources rs asc = none := (configSources_eq_none_iff rs asc).2 h
  have hrejected (long : Prop) : 4 < rs.toNat ∨ 4 < asc.toNat ∨ long ∨ asc = rs := by tauto
  refine ⟨fun stopEn dir start inc stop aper rper => ?counter,
    fun cont pad aper rper text => exec_carConfig_of_rejected (hrejected _) cont pad aper rper s,
    fun cont pad coll aper rper text => exec_sldConfig_of_rejected (hrejected _) cont pad coll aper rper s,
    fun hgt chars rper => ?static⟩
  case counter =>
    rcases exec_cntConfig_cases rs asc stopEn dir start inc stop aper rper s with ⟨-, hexec⟩ | ⟨r, a, d, hsome, -, -⟩
    · exact hexec
    · simp [hnone] at hsome
  case static =>
    rcases exec_showStatic_cases rs chars rper s with ⟨-, hexec⟩ | ⟨r, hr, -⟩
    · exact hexec
    · omega

/-- NONE and STATIC have no animation handler (R153). -/
theorem animationTick_of_not_animated {s : State} (h : s.binding.active.animated = false) : animationTick s = s := by
  by_contra hne
  simp [animated_of_animationTick_ne hne] at h

/-- Settles O47: of the three dispatches, no refresh is possible, and an animation finds no handler. -/
theorem unboundTicksAreIgnored : Obligations.UnboundTicksAreIgnored := by
  refine fun code s => ⟨fun hgt => ?noSource, fun src hcode hr hidle => ?noRole⟩
  case noSource => exact congrArg Host.Outcome.next (tickWith_unbound fun src hcode => by omega)
  case noRole =>
    refine congrArg Host.Outcome.next ?_
    rcases tickWith_cases blockParams code s with ⟨src', hcode', hr', -⟩ | ⟨src', hcode', -, ha, h⟩ | ⟨-, h⟩
    · obtain rfl : src = src' := Fin.ext (hcode.symm.trans hcode')
      exact absurd hr' hr
    · obtain rfl : src = src' := Fin.ext (hcode.symm.trans hcode')
      exact h.trans (animationTick_of_not_animated (hidle.resolve_left (not_not_intro ha)))
    · exact h

/-! ## What is emitted (R271, R272) -/

/-- No tick emits a record (R271). -/
@[simp] theorem tickWith_trace (P : Config.Params) (code : SourceCode) (s : State) :
    (tickWith P code s).trace = s.trace := by
  rcases tickWith_cases P code s with ⟨_, -, -, h⟩ | ⟨_, -, -, -, h⟩ | ⟨-, h⟩ <;> rw [h]
  · rfl
  · obtain ⟨-, -, htrace, -⟩ := animationTick_frame s
    exact htrace

/-- Bind's records, the new ones read from the bindings it leaves (R272). -/
theorem bindSources_trace_eq_append (r : Source) (rp : Word) (anim : Option Source) (ap : Word) (s : State) :
    let t := bindSources r rp anim ap s
    t.trace = s.trace ++ s.binding.rsrc.toList.map .disarm ++ s.binding.asrc.toList.map .disarm ++
      [.arm r t.binding.rper] ++ t.binding.asrc.toList.map (.arm · t.binding.aper) :=
  congrArg State.trace (bindSources_eq r rp anim ap s)

/-- Settles O49: of the steps an event can make, only the two reads and the four accepted configures emit. -/
theorem onlyReadsAndConfiguresEmit : Obligations.OnlyReadsAndConfiguresEmit := by
  intro e s t h
  rcases deliver_cases h with ⟨-, rfl⟩ | ⟨code, -, rfl⟩ | rfl | ⟨ws, i, hcmd, hdecode, -, -, hstep⟩
  · exact .inl rfl
  · exact .inl (tickWith_trace blockParams code s)
  · exact .inl rfl
  · cases hstep with
    | ignored | setupDisplay | setDp | counter | carouselPause | carouselRestart | sliderPause | sliderRestart =>
      exact .inl rfl
    | readNorm => exact .inr (.inl ⟨ws, hcmd, hdecode, rfl⟩)
    | readRaw => exact .inr (.inr (.inl ⟨ws, hcmd, hdecode, rfl⟩))
    | showStatic rs chars rper r hr =>
      exact .inr (.inr (.inr ⟨ws, _, r, hcmd, hdecode, .inl ⟨_, _, _, rfl, hr, rfl⟩, rfl,
        bindSources_trace_eq_append ..⟩))
    | cntConfig _ _ _ _ _ _ _ _ _ r a c hr =>
      exact .inr (.inr (.inr ⟨ws, _, r, hcmd, hdecode, .inr (.inl ⟨_, _, _, _, _, _, _, _, _, rfl, hr, rfl⟩), rfl,
        bindSources_trace_eq_append ..⟩))
    | carConfig _ _ _ _ _ _ _ r a hr =>
      exact .inr (.inr (.inr ⟨ws, _, r, hcmd, hdecode, .inr (.inr (.inl ⟨_, _, _, _, _, _, _, rfl, hr, rfl⟩)), rfl,
        bindSources_trace_eq_append ..⟩))
    | sldConfig _ _ _ _ _ _ _ _ r a hr =>
      exact .inr (.inr (.inr ⟨ws, _, r, hcmd, hdecode, .inr (.inr (.inr ⟨_, _, _, _, _, _, _, _, rfl, hr, rfl⟩)), rfl,
        bindSources_trace_eq_append ..⟩))

/-! ## The order of simultaneous ticks (R298) -/

/-- The dispatch of a counting tick, for any parameters (R275). -/
theorem tickWith_counter {P : Config.Params} {s : State} {code : SourceCode} {src : Source}
    (hcode : code.toNat = src.val) (hr : s.binding.rsrc ≠ some src) (ha : s.binding.asrc = some src)
    (hactive : s.binding.active = .counter) : tickWith P code s = cntTick s := by
  rw [tickWith_animation hcode hr ha, animationTick, hactive]

section TwoTicks

variable {s : State} {refresh count : SourceCode} {r a : Source} (hrefresh : refresh.toNat = r.val)
  (hcount : count.toNat = a.val) (hr : s.binding.rsrc = some r) (ha : s.binding.asrc = some a)
  (hne : s.binding.rsrc ≠ some a) (hactive : s.binding.active = .counter)

include hrefresh hcount hr ha hne hactive

theorem run_refresh_then_count :
    Sys2Proof.core.run 2 (s.setInbox [.tick refresh, .tick count]) =
      .next ((cntTick (refreshWith blockParams s)).setInbox []) := by
  have hfirst := tickWith_refresh (P := blockParams) hrefresh hr
  have hsecond : tickWith blockParams count (refreshWith blockParams s) = _ :=
    tickWith_counter hcount hne ha hactive
  rw [← hsecond, ← hfirst]
  exact run_ticks [refresh, count] s

theorem run_count_then_refresh :
    Sys2Proof.core.run 2 (s.setInbox [.tick count, .tick refresh]) =
      .next ((refreshWith blockParams (cntTick s)).setInbox []) := by
  have hfirst := tickWith_counter (P := blockParams) hcount hne ha hactive
  have hsecond : tickWith blockParams refresh (cntTick s) = _ := tickWith_refresh hrefresh hr
  rw [← hsecond, ← hfirst]
  exact run_ticks [count, refresh] s

end TwoTicks

/-- Under one polarity the segment levels determine the mask (R144). -/
theorem driveLevels_seg_inj (P : Config.Params) (pol : Bool) (seg seg' : BitVec 7) (dp dp' : Bool)
    (dig dig' : BitVec 4) :
    (driveLevels P pol seg dp dig).seg = (driveLevels P pol seg' dp' dig').seg ↔ seg = seg' := by
  simp only [driveLevels]
  split
  · rfl
  · exact BitVec.not_inj

/-- Refreshes under one polarity that show different glyphs drive different segment levels (R140, R144). -/
theorem refreshWith_seg_ne {P : Config.Params} {s t : State} (hpol : s.display.pol = t.display.pol)
    (hglyph : encodeGlyph P s.display.dbuf[s.display.digIdx + 1] ≠ encodeGlyph P t.display.dbuf[t.display.digIdx + 1]) :
    (refreshWith P s).display.pins.seg ≠ (refreshWith P t).display.pins.seg := by
  show (driveLevels P s.display.pol _ _ _).seg ≠ (driveLevels P t.display.pol _ _ _).seg
  rw [hpol]
  exact (driveLevels_seg_inj ..).not.2 hglyph

/-- What a command makes of the reset state is reached by a run, with any events still to come. -/
theorem Reachable.of_first_command {ws : List Word} {i : Instr} {s : State} (hdecode : decode ws = .ok i)
    (hexec : exec i State.reset = .next s) (events : List Event) : Reachable (s.setInbox events) := by
  refine .step _ _ (.reset (.cmd ws :: events)) ?_
  rw [step_setInbox_cons, deliver_cmd_of_decode_ok hdecode]
  exact exec_setInbox hexec events

/-- The counter slot of an accepted CNT_CONFIG that counts up from 999 by 1 (R170). -/
def counterFrom999 : Counter :=
  { start := 999, cur := 999, norm := 999, inc := 1, dir := .increase, stop := 0, stopEn := false, pause := false }

/-- The example's state: that CNT_CONFIG right after reset, with refresh source 0 and animation source 1. The display
buffer is still blank, and position 0 is refreshed next. -/
def configuredAt999 : State :=
  bindSources 0 1000 (some 1) 500 ((State.reset.setCounter counterFrom999).setActive .counter)

theorem configuredAt999_reachable (events : List Event) : Reachable (configuredAt999.setInbox events) :=
  .of_first_command (ws := [0x00000810, 999, 1, 0, 500, 1000]) (i := .cntConfig 0 1 false 0x00 999 1 0 500 1000)
    rfl rfl events

/-- At position 0 the blank shows before the first counting tick, and '1' after it. -/
theorem configuredAt999_glyph_ne :
    encodeGlyph blockParams configuredAt999.display.dbuf[configuredAt999.display.digIdx + 1] ≠
      encodeGlyph blockParams
        (cntTick configuredAt999).display.dbuf[(cntTick configuredAt999).display.digIdx + 1] := by decide

/-- Settles O60: both orders write the same projection, but a refresh before it shows the blank and one after it '1'. -/
theorem refreshAndAnimationOrderIsObservable : Obligations.RefreshAndAnimationOrderIsObservable :=
  ⟨configuredAt999, (cntTick (refreshWith blockParams configuredAt999)).setInbox [],
    (refreshWith blockParams (cntTick configuredAt999)).setInbox [],
    (configuredAt999_reachable []).inv.of_groups_eq rfl rfl rfl rfl, rfl, rfl, rfl,
    configuredAt999_reachable _, configuredAt999_reachable _,
    run_refresh_then_count (r := 0) (a := 1) rfl rfl rfl rfl (by decide) rfl,
    run_count_then_refresh (r := 0) (a := 1) rfl rfl rfl rfl (by decide) rfl,
    rfl, refreshWith_seg_ne rfl configuredAt999_glyph_ne⟩

end Sys2Proof.Machine
end

section
/-! SUPPORT. The statement about the reset event (70_reset_and_hazards.md): pins driven off read as dark whatever the
polarity, and a state with no source bound ignores every tick. -/

namespace Sys2Proof.Machine

/-! ## Dark pins and unbound sources -/

/-- Pins driven off light no segment (R144, R150). -/
theorem segmentLit_of_off {P : Config.Params} {d : Display} {dp : Bool} {dig : BitVec 4}
    (h : d.pins = driveLevels P d.pol 0 dp dig) (j : Nat) (hj : j < 7) : segmentLit P d j = false :=
  (segmentLit_driven h j hj).trans BitVec.getLsbD_zero

/-- Pins driven off enable no digit (R144, R150). -/
theorem digitEnabled_of_off {P : Config.Params} {d : Display} {seg : BitVec 7} {dp : Bool}
    (h : d.pins = driveLevels P d.pol seg dp 0) (k : Position) : digitEnabled P d k = false :=
  (digitEnabled_driven h k).trans BitVec.getLsbD_zero

/-- The reset value of the pins drives everything off under the reset polarity (R54). -/
theorem Display.reset_pins : Display.reset.pins = driveLevels blockParams Display.reset.pol 0 false 0 := by decide

/-- With neither role bound, no tick finds its source (R54, R276). -/
theorem exec_tick_of_binding_reset {s : State} (h : s.binding = Binding.reset) (code : SourceCode) :
    exec (.tick code) s = .next s := by
  have hunbound : ∀ src : Source, code.toNat = src.val → s.binding.rsrc ≠ some src ∧ s.binding.asrc ≠ some src := by
    simp [h, Binding.reset]
  exact congrArg Host.Outcome.next (tickWith_unbound hunbound)

/-! ## The reset event -/

/-- Settles O53: the reset pins are driven off, and the reset bindings dispatch no tick. -/
theorem resetEventLeavesNothingLitOrBound : Obligations.ResetEventLeavesNothingLitOrBound := fun s =>
  ⟨powerCycle s, rfl, rfl, rfl, rfl, rfl, rfl, rfl, rfl, digitEnabled_of_off Display.reset_pins,
    segmentLit_of_off Display.reset_pins, exec_tick_of_binding_reset rfl⟩

end Sys2Proof.Machine
end
